-- ==== Sys2Proof/Word.lean ====
section
/-! DEFINITION. The widths of the CORE: bytes, words, instruction fields, register and key numbers (rules R3, R7, R81). -/

namespace Sys2Proof

/-- An 8-bit value: a general register, a timer, a byte of memory (R20, R29, R50). -/
abbrev Byte := BitVec 8

/-- A 16-bit value: I, PC, a return address, an instruction word (R24, R25, R27, R80). -/
abbrev Word := BitVec 16

/-- The 12-bit address immediate NNN (R81). -/
abbrev Addr12 := BitVec 12

/-- A 4-bit field of an instruction word (R81). -/
abbrev Nibble := BitVec 4

/-- A register number, 0x0 to 0xF (R20). -/
abbrev Reg := Fin 16

/-- A key code, 0x0 to 0xF (R3, R31); "no key" is `none` of `Option Key`. -/
abbrev Key := Fin 16

/-- VF, register 15, which is also the flag register (R21). -/
abbrev VF : Reg := 15

end Sys2Proof
end

