-- ==== Sys2Proof/Syntax.lean ====
section
/-! DEFINITION. The instructions: one constructor per row of spec/opcode_table.json (rules R2, R82, R91, R92). -/

namespace Sys2Proof

/-- The 34 instructions and the catch-all no-op, in the table's order, with their operand fields (R81 to R83). -/
inductive Instr where
  /-- 00E0 CLS (R181). -/
  | cls
  /-- 00EE RET (R122). -/
  | ret
  /-- 1NNN JP nnn (R123). -/
  | jp (nnn : Addr12)
  /-- 2NNN CALL nnn (R124). -/
  | call (nnn : Addr12)
  /-- 3XKK SE Vx, kk (R125). -/
  | seImm (x : Reg) (kk : Byte)
  /-- 4XKK SNE Vx, kk (R126). -/
  | sneImm (x : Reg) (kk : Byte)
  /-- 5XY0 SE Vx, Vy (R127). -/
  | seReg (x y : Reg)
  /-- 6XKK LD Vx, kk (R141). -/
  | ldImm (x : Reg) (kk : Byte)
  /-- 7XKK ADD Vx, kk (R142). -/
  | addImm (x : Reg) (kk : Byte)
  /-- 8XY0 LD Vx, Vy (R143). -/
  | ldReg (x y : Reg)
  /-- 8XY1 OR Vx, Vy (R144). -/
  | or (x y : Reg)
  /-- 8XY2 AND Vx, Vy (R145). -/
  | and (x y : Reg)
  /-- 8XY3 XOR Vx, Vy (R146). -/
  | xor (x y : Reg)
  /-- 8XY4 ADD Vx, Vy (R147). -/
  | addReg (x y : Reg)
  /-- 8XY5 SUB Vx, Vy (R148). -/
  | sub (x y : Reg)
  /-- 8XY6 SHR Vx, Vy (R149). -/
  | shr (x y : Reg)
  /-- 8XY7 SUBN Vx, Vy (R150). -/
  | subn (x y : Reg)
  /-- 8XYE SHL Vx, Vy (R151). -/
  | shl (x y : Reg)
  /-- 9XY0 SNE Vx, Vy (R128). -/
  | sneReg (x y : Reg)
  /-- ANNN LD I, nnn (R160). -/
  | ldI (nnn : Addr12)
  /-- BNNN JP V0, nnn (R129). -/
  | jpV0 (nnn : Addr12)
  /-- CXKK RND Vx, kk (R152). -/
  | rnd (x : Reg) (kk : Byte)
  /-- DXYN DRW Vx, Vy, n (R182). -/
  | drw (x y : Reg) (n : Nibble)
  /-- EX9E SKP Vx (R200). -/
  | skp (x : Reg)
  /-- EXA1 SKNP Vx (R201). -/
  | sknp (x : Reg)
  /-- FX07 LD Vx, DT (R202). -/
  | ldVxDt (x : Reg)
  /-- FX0A LD Vx, K (R203, R204). -/
  | ldVxK (x : Reg)
  /-- FX15 LD DT, Vx (R205). -/
  | ldDtVx (x : Reg)
  /-- FX18 LD ST, Vx (R206). -/
  | ldStVx (x : Reg)
  /-- FX1E ADD I, Vx (R161). -/
  | addI (x : Reg)
  /-- FX29 LD F, Vx (R162). -/
  | ldF (x : Reg)
  /-- FX33 LD B, Vx (R163). -/
  | ldBcd (x : Reg)
  /-- FX55 LD [I], Vx (R164). -/
  | ldMemVx (x : Reg)
  /-- FX65 LD Vx, [I] (R165). -/
  | ldVxMem (x : Reg)
  /-- Any word that matches no other row: a no-op, with the word kept so that its encoding is known (R88, R112). -/
  | nopUnmatched (w : Word)
  deriving DecidableEq, Repr

/-- The instruction's mnemonic, as spec/opcode_table.json spells it. -/
def Instr.mnemonic : Instr → String
  | .cls => "CLS"
  | .ret => "RET"
  | .jp _ => "JP"
  | .call _ => "CALL"
  | .seImm _ _ => "SE_IMM"
  | .sneImm _ _ => "SNE_IMM"
  | .seReg _ _ => "SE_REG"
  | .ldImm _ _ => "LD_IMM"
  | .addImm _ _ => "ADD_IMM"
  | .ldReg _ _ => "LD_REG"
  | .or _ _ => "OR"
  | .and _ _ => "AND"
  | .xor _ _ => "XOR"
  | .addReg _ _ => "ADD_REG"
  | .sub _ _ => "SUB"
  | .shr _ _ => "SHR"
  | .subn _ _ => "SUBN"
  | .shl _ _ => "SHL"
  | .sneReg _ _ => "SNE_REG"
  | .ldI _ => "LD_I"
  | .jpV0 _ => "JP_V0"
  | .rnd _ _ => "RND"
  | .drw _ _ _ => "DRW"
  | .skp _ => "SKP"
  | .sknp _ => "SKNP"
  | .ldVxDt _ => "LD_VX_DT"
  | .ldVxK _ => "LD_VX_K"
  | .ldDtVx _ => "LD_DT_VX"
  | .ldStVx _ => "LD_ST_VX"
  | .addI _ => "ADD_I"
  | .ldF _ => "LD_F"
  | .ldBcd _ => "LD_BCD"
  | .ldMemVx _ => "LD_MEM_VX"
  | .ldVxMem _ => "LD_VX_MEM"
  | .nopUnmatched _ => "NOP_UNMATCHED"

end Sys2Proof
end

