-- ==== Sys2Proof/WellFormed.lean ====
section
/-! DEFINITION. The rows of spec/opcode_table.json as masks and patterns (rules R82, R84 to R87), and which instruction terms are well formed. -/

namespace Sys2Proof

/-- One row of the opcode table: a word `w` matches it when `w &&& mask = value` (R86). -/
structure OpcodeRow where
  mnemonic : String
  mask : Word
  value : Word
  deriving DecidableEq, Repr

/-- The word matches the row (R86). -/
def OpcodeRow.matchesWord (r : OpcodeRow) (w : Word) : Bool := w &&& r.mask == r.value

/-- The rows of format FIXED (R82): mnemonic, mask, match. -/
def rowsFixed : List OpcodeRow :=
  [⟨"CLS", 0xFFFF, 0x00E0⟩, ⟨"RET", 0xFFFF, 0x00EE⟩]

/-- The rows of format NNN (R82): mnemonic, mask, match. -/
def rowsNnn : List OpcodeRow :=
  [⟨"JP", 0xF000, 0x1000⟩, ⟨"CALL", 0xF000, 0x2000⟩, ⟨"LD_I", 0xF000, 0xA000⟩, ⟨"JP_V0", 0xF000, 0xB000⟩]

/-- The rows of format XKK (R82): mnemonic, mask, match. -/
def rowsXkk : List OpcodeRow :=
  [⟨"SE_IMM", 0xF000, 0x3000⟩, ⟨"SNE_IMM", 0xF000, 0x4000⟩, ⟨"LD_IMM", 0xF000, 0x6000⟩, ⟨"ADD_IMM", 0xF000, 0x7000⟩] ++
  [⟨"RND", 0xF000, 0xC000⟩]

/-- The rows of format XY (R82): mnemonic, mask, match. -/
def rowsXy : List OpcodeRow :=
  [⟨"SE_REG", 0xF00F, 0x5000⟩, ⟨"LD_REG", 0xF00F, 0x8000⟩, ⟨"OR", 0xF00F, 0x8001⟩, ⟨"AND", 0xF00F, 0x8002⟩] ++
  [⟨"XOR", 0xF00F, 0x8003⟩, ⟨"ADD_REG", 0xF00F, 0x8004⟩, ⟨"SUB", 0xF00F, 0x8005⟩, ⟨"SHR", 0xF00F, 0x8006⟩] ++
  [⟨"SUBN", 0xF00F, 0x8007⟩, ⟨"SHL", 0xF00F, 0x800E⟩, ⟨"SNE_REG", 0xF00F, 0x9000⟩]

/-- The rows of format XYN (R82): mnemonic, mask, match. -/
def rowsXyn : List OpcodeRow :=
  [⟨"DRW", 0xF000, 0xD000⟩]

/-- The rows of format X (R82): mnemonic, mask, match. -/
def rowsX : List OpcodeRow :=
  [⟨"SKP", 0xF0FF, 0xE09E⟩, ⟨"SKNP", 0xF0FF, 0xE0A1⟩, ⟨"LD_VX_DT", 0xF0FF, 0xF007⟩, ⟨"LD_VX_K", 0xF0FF, 0xF00A⟩] ++
  [⟨"LD_DT_VX", 0xF0FF, 0xF015⟩, ⟨"LD_ST_VX", 0xF0FF, 0xF018⟩, ⟨"ADD_I", 0xF0FF, 0xF01E⟩, ⟨"LD_F", 0xF0FF, 0xF029⟩] ++
  [⟨"LD_BCD", 0xF0FF, 0xF033⟩, ⟨"LD_MEM_VX", 0xF0FF, 0xF055⟩, ⟨"LD_VX_MEM", 0xF0FF, 0xF065⟩]

/-- The 34 instruction rows (R86). -/
def instructionRows : List OpcodeRow := rowsFixed ++ rowsNnn ++ rowsXkk ++ rowsXy ++ rowsXyn ++ rowsX

/-- The catch-all row, taken only when no other row matches (R86). -/
def unmatchedRow : OpcodeRow := ⟨"NOP_UNMATCHED", 0x0000, 0x0000⟩

/-- The word matches none of the 34 instruction rows (R88). -/
def unmatchedWord (w : Word) : Bool := instructionRows.all fun r => !r.matchesWord w

/-- Every operand value of every field is legal (R81, R83); the catch-all stands for unmatched words only (R88). -/
def Instr.wellFormed : Instr → Bool
  | .cls => true
  | .ret => true
  | .jp _ => true
  | .call _ => true
  | .seImm _ _ => true
  | .sneImm _ _ => true
  | .seReg _ _ => true
  | .ldImm _ _ => true
  | .addImm _ _ => true
  | .ldReg _ _ => true
  | .or _ _ => true
  | .and _ _ => true
  | .xor _ _ => true
  | .addReg _ _ => true
  | .sub _ _ => true
  | .shr _ _ => true
  | .subn _ _ => true
  | .shl _ _ => true
  | .sneReg _ _ => true
  | .ldI _ => true
  | .jpV0 _ => true
  | .rnd _ _ => true
  | .drw _ _ _ => true
  | .skp _ => true
  | .sknp _ => true
  | .ldVxDt _ => true
  | .ldVxK _ => true
  | .ldDtVx _ => true
  | .ldStVx _ => true
  | .addI _ => true
  | .ldF _ => true
  | .ldBcd _ => true
  | .ldMemVx _ => true
  | .ldVxMem _ => true
  | .nopUnmatched w => unmatchedWord w

end Sys2Proof
end

