-- ==== Sys2Proof/Decode.lean ====
section
/-! DEFINITION. Decoding, total on any bytes (rules R80 to R91), and the encoder, written from the formats of rule R82. -/

namespace Sys2Proof

/-! ## Fields (R81) -/

/-- op = w[15:12]. -/
def opField (w : Word) : Nibble := w.extractLsb' 12 4
/-- w[11:8] as a nibble. -/
def xNibble (w : Word) : Nibble := w.extractLsb' 8 4
/-- w[7:4] as a nibble. -/
def yNibble (w : Word) : Nibble := w.extractLsb' 4 4
/-- n = w[3:0]. -/
def nField (w : Word) : Nibble := w.extractLsb' 0 4
/-- kk = w[7:0]. -/
def kkField (w : Word) : Byte := w.extractLsb' 0 8
/-- nnn = w[11:0]. -/
def nnnField (w : Word) : Addr12 := w.extractLsb' 0 12
/-- The register a nibble selects. -/
def regOfNibble (b : Nibble) : Reg := b.toFin
/-- The nibble that selects a register. -/
def nibbleOfReg (x : Reg) : Nibble := BitVec.ofFin x
/-- x = w[11:8], a register number. -/
def xField (w : Word) : Reg := regOfNibble (xNibble w)
/-- y = w[7:4], a register number. -/
def yField (w : Word) : Reg := regOfNibble (yNibble w)

/-! ## The opcode map (R84, R85, R87) -/

/-- Family 0: the whole word selects. -/
def decodeFamily0 (w : Word) : Instr :=
  if w = 0x00E0 then .cls
  else if w = 0x00EE then .ret
  else .nopUnmatched w

/-- Family 8: n selects. -/
def decodeFamily8 (w : Word) : Instr :=
  let x := xField w
  let y := yField w
  match (nField w).toNat with
  | 0x0 => .ldReg x y
  | 0x1 => .or x y
  | 0x2 => .and x y
  | 0x3 => .xor x y
  | 0x4 => .addReg x y
  | 0x5 => .sub x y
  | 0x6 => .shr x y
  | 0x7 => .subn x y
  | 0xE => .shl x y
  | _ => .nopUnmatched w

/-- Family E: kk selects. -/
def decodeFamilyE (w : Word) : Instr :=
  let x := xField w
  let kk := kkField w
  if kk = 0x9E then .skp x
  else if kk = 0xA1 then .sknp x
  else .nopUnmatched w

/-- Family F: kk selects. -/
def decodeFamilyF (w : Word) : Instr :=
  let x := xField w
  let kk := kkField w
  if kk = 0x07 then .ldVxDt x
  else if kk = 0x0A then .ldVxK x
  else if kk = 0x15 then .ldDtVx x
  else if kk = 0x18 then .ldStVx x
  else if kk = 0x1E then .addI x
  else if kk = 0x29 then .ldF x
  else if kk = 0x33 then .ldBcd x
  else if kk = 0x55 then .ldMemVx x
  else if kk = 0x65 then .ldVxMem x
  else .nopUnmatched w

/-- The instruction a word is (R84, R88, R91): total, and it reads nothing but the word (R103). -/
def decodeWord (w : Word) : Instr :=
  match (opField w).toNat with
  | 0x0 => decodeFamily0 w
  | 0x1 => .jp (nnnField w)
  | 0x2 => .call (nnnField w)
  | 0x3 => .seImm (xField w) (kkField w)
  | 0x4 => .sneImm (xField w) (kkField w)
  | 0x5 => if nField w = 0 then .seReg (xField w) (yField w) else .nopUnmatched w
  | 0x6 => .ldImm (xField w) (kkField w)
  | 0x7 => .addImm (xField w) (kkField w)
  | 0x8 => decodeFamily8 w
  | 0x9 => if nField w = 0 then .sneReg (xField w) (yField w) else .nopUnmatched w
  | 0xA => .ldI (nnnField w)
  | 0xB => .jpV0 (nnnField w)
  | 0xC => .rnd (xField w) (kkField w)
  | 0xD => .drw (xField w) (yField w) (nField w)
  | 0xE => decodeFamilyE w
  | _ => decodeFamilyF w

/-- Why a string of bytes is no instruction. -/
inductive DecodeError where
  /-- Fewer than the two bytes every instruction has (R80). -/
  | truncated
  deriving DecidableEq, Repr

/-- A word from its two bytes, the byte of the lower address first: big-endian (R53, R80). -/
def wordOfBytes (hi lo : Byte) : Word := hi ++ lo

/-- The first instruction of a string of bytes, with the bytes after it (R80, R91). -/
def decode : List Byte → Except DecodeError (Instr × List Byte)
  | hi :: lo :: rest => .ok (decodeWord (wordOfBytes hi lo), rest)
  | [_] => .error .truncated
  | [] => .error .truncated

/-! ## The encoder: the layouts of R82 -/

/-- `op ++ nnn`, format NNN. -/
def wordNNN (op : Nibble) (nnn : Addr12) : Word := op ++ nnn
/-- `op ++ x ++ kk`, format XKK. -/
def wordXKK (op : Nibble) (x : Reg) (kk : Byte) : Word := (op ++ nibbleOfReg x ++ kk : BitVec (4 + 4 + 8))
/-- `op ++ x ++ y ++ n`, formats XY and XYN. -/
def wordXYN (op : Nibble) (x y : Reg) (n : Nibble) : Word :=
  (op ++ nibbleOfReg x ++ nibbleOfReg y ++ n : BitVec (4 + 4 + 4 + 4))

/-- The word of an instruction (R82, R84, R85). -/
def encode : Instr → Word
  | .cls => 0x00E0
  | .ret => 0x00EE
  | .jp nnn => wordNNN 0x1 nnn
  | .call nnn => wordNNN 0x2 nnn
  | .seImm x kk => wordXKK 0x3 x kk
  | .sneImm x kk => wordXKK 0x4 x kk
  | .seReg x y => wordXYN 0x5 x y 0x0
  | .ldImm x kk => wordXKK 0x6 x kk
  | .addImm x kk => wordXKK 0x7 x kk
  | .ldReg x y => wordXYN 0x8 x y 0x0
  | .or x y => wordXYN 0x8 x y 0x1
  | .and x y => wordXYN 0x8 x y 0x2
  | .xor x y => wordXYN 0x8 x y 0x3
  | .addReg x y => wordXYN 0x8 x y 0x4
  | .sub x y => wordXYN 0x8 x y 0x5
  | .shr x y => wordXYN 0x8 x y 0x6
  | .subn x y => wordXYN 0x8 x y 0x7
  | .shl x y => wordXYN 0x8 x y 0xE
  | .sneReg x y => wordXYN 0x9 x y 0x0
  | .ldI nnn => wordNNN 0xA nnn
  | .jpV0 nnn => wordNNN 0xB nnn
  | .rnd x kk => wordXKK 0xC x kk
  | .drw x y n => wordXYN 0xD x y n
  | .skp x => wordXKK 0xE x 0x9E
  | .sknp x => wordXKK 0xE x 0xA1
  | .ldVxDt x => wordXKK 0xF x 0x07
  | .ldVxK x => wordXKK 0xF x 0x0A
  | .ldDtVx x => wordXKK 0xF x 0x15
  | .ldStVx x => wordXKK 0xF x 0x18
  | .addI x => wordXKK 0xF x 0x1E
  | .ldF x => wordXKK 0xF x 0x29
  | .ldBcd x => wordXKK 0xF x 0x33
  | .ldMemVx x => wordXKK 0xF x 0x55
  | .ldVxMem x => wordXKK 0xF x 0x65
  | .nopUnmatched w => w

/-- The bytes of an instruction as memory holds them, the high byte at the lower address (R53, R80). -/
def encodeBytes (i : Instr) : List Byte := [(encode i).extractLsb' 8 8, (encode i).extractLsb' 0 8]

/-! ## The opcode table's numbering of an instruction's bits -/

/-- The bytes of an instruction whose bits are `w`, of which the table gives `nbits`; the bits above are 0. One word, stored big-endian. -/
def tableBytes (nbits w : Nat) : List Byte :=
  let word : Word := BitVec.ofNat 16 (w % 2 ^ nbits)
  [word.extractLsb' 8 8, word.extractLsb' 0 8]

/-- What the decoder reads from those bytes. -/
def decodeTableWord (nbits w : Nat) : Option Instr :=
  match decode (tableBytes nbits w) with
  | .ok (i, _) => some i
  | .error _ => none

end Sys2Proof
end

