-- ==== Sys2Proof/Config.lean ====
section
/-! DEFINITION. What an implementation or its host fixes for a whole run (rule R5), and the free values: constants with no body, of which no proof can know anything. -/

namespace Sys2Proof

/-- How DRW computes VF (rules R5, R183, R184). -/
inductive CollisionMode where
  | lastPixel
  | anyPixel
  deriving DecidableEq, Repr

/-- The configuration of R5 and R40. It is fixed before the first cycle and written by nothing after (R36). -/
structure Config where
  /-- SHIFT_QUIRK: 8XY6 and 8XYE read Vx instead of Vy. -/
  shiftQuirk : Bool
  /-- LOAD_STORE_QUIRK: FX55 and FX65 leave I unchanged. -/
  loadStoreQuirk : Bool
  /-- COLLISION_MODE. -/
  collisionMode : CollisionMode
  /-- FONT, the 80 bytes placed at 0x000-0x04F at start (R58). -/
  font : Vector Byte 80
  /-- IPS, a positive integer; wall-clock pacing only: no rule reads it (R5, R268). -/
  ips : { n : Nat // 0 < n }
  deriving DecidableEq, Repr

/-- What the host does at ONE step boundary (rules R238 to R241, R245). -/
structure HostInput where
  /-- `some k`: the host writes the key value `k` (a key, or `none` for NONE) to KEY; `none`: KEY is left alone (R238). -/
  writeKey : Option (Option Key)
  /-- The host clears the dirty flag, after it rendered (R186, R240). -/
  clearDirty : Bool
  /-- The key delivered through the wait-for-key handshake, accepted in WAIT_KEY only (R239). -/
  deliverKey : Option Key
  deriving DecidableEq, Repr

/-- The host does nothing at this boundary. -/
def HostInput.idle : HostInput := { writeKey := none, clearDirty := false, deliverKey := none }

/-- The sixteen conventional glyphs, digit 0 first, five bytes each (R58; PRESUMED, log entry 2). -/
def Config.fontBytes : List Byte :=
  [0xF0, 0x90, 0x90, 0x90, 0xF0] ++ [0x20, 0x60, 0x20, 0x20, 0x70] ++
  [0xF0, 0x10, 0xF0, 0x80, 0xF0] ++ [0xF0, 0x10, 0xF0, 0x10, 0xF0] ++
  [0x90, 0x90, 0xF0, 0x10, 0x10] ++ [0xF0, 0x80, 0xF0, 0x10, 0xF0] ++
  [0xF0, 0x80, 0xF0, 0x90, 0xF0] ++ [0xF0, 0x10, 0x20, 0x40, 0x40] ++
  [0xF0, 0x90, 0xF0, 0x90, 0xF0] ++ [0xF0, 0x90, 0xF0, 0x10, 0xF0] ++
  [0xF0, 0x90, 0xF0, 0x90, 0x90] ++ [0xE0, 0x90, 0xE0, 0x90, 0xE0] ++
  [0xF0, 0x80, 0x80, 0x80, 0xF0] ++ [0xE0, 0x90, 0x90, 0x90, 0xE0] ++
  [0xF0, 0x80, 0xF0, 0x80, 0xF0] ++ [0xF0, 0x80, 0xF0, 0x80, 0x80]

/-- The default of FONT (R58). -/
def Config.defaultFont : Vector Byte 80 := ⟨Config.fontBytes.toArray, rfl⟩

/-- FREE VALUE: the SHIFT_QUIRK the host chose. The source fixes no default (R6; DESIGN CHOICE, log entry 1). -/
opaque Config.hostShiftQuirk : Bool

/-- FREE VALUE: the LOAD_STORE_QUIRK the host chose. The source fixes no default (R6; DESIGN CHOICE, log entry 1). -/
opaque Config.hostLoadStoreQuirk : Bool

/-- FREE VALUE: IPS less one, so that IPS is positive (R5; DESIGN CHOICE, log entry 1). -/
opaque Config.hostIpsPred : Nat

/-- FREE VALUE: what the host does at the step boundaries of the run from reset (R238 to R241; DESIGN CHOICE, log entry 4). -/
opaque Config.hostInputs : List HostInput

/-- FREE VALUE: the random byte of the `n`-th draw of RND (R152; DESIGN CHOICE, log entry 18). -/
opaque Config.randomByte : Nat → Byte

/-- The configuration at reset: free where the spec gives no default, the spec's default elsewhere (R5, log entries 1 and 2). -/
def Config.atReset : Config :=
  { shiftQuirk := Config.hostShiftQuirk
    loadStoreQuirk := Config.hostLoadStoreQuirk
    collisionMode := .lastPixel
    font := Config.defaultFont
    ips := ⟨Config.hostIpsPred + 1, Nat.succ_pos _⟩ }

end Sys2Proof
end

