-- ==== Sys2Proof/Machine/State.lean ====
section
/-! DEFINITION. The state of the CORE as plain data (rule R40), the state at start, and the reasons a step can stop. -/

namespace Sys2Proof.Machine

/-- The fatal conditions (R222). -/
inductive Cause where
  /-- CALL with 16 return addresses on the stack (R124). -/
  | stackOverflow
  /-- RET with an empty stack (R122). -/
  | stackUnderflow
  /-- An access at an address of 0x1000 or more (R51). -/
  | memBounds
  /-- A store below 0x050 (R55). -/
  | fontWrite
  /-- A fetch below 0x200 (R102). -/
  | lowFetch
  /-- The host cannot supply the ROM (R258). -/
  | romUnreadable
  /-- The ROM is longer than 3584 bytes (R257). -/
  | romTooLarge
  deriving DecidableEq, Repr

/-- The fault record (R224). -/
structure FaultRecord where
  cause : Cause
  /-- The address of the faulting instruction or of the failed fetch; none for a load-time fault, which has neither (log entry 16). -/
  pc : Option Word
  /-- The fetched word; none for a fetch fault. -/
  word : Option Word
  /-- The failing memory address, a mathematical integer (R51), for MEM_BOUNDS, FONT_WRITE and LOW_FETCH. -/
  addr : Option Nat
  deriving DecidableEq, Repr

/-- The run state (R35). -/
inductive RunState where
  | running
  | waitKey (x : Reg)
  | halted (record : FaultRecord)
  deriving DecidableEq, Repr

/-- Memory: the listed cells in rising order of address, none equal to what an unlisted address reads as (Memory.wf in Machine/Ops.lean). -/
abbrev Memory := List Host.Cell

/-- The general registers V0 to VF (R20). -/
abbrev Regs := Vector Byte 16

/-- The display: 32 rows, top first, of 64 columns, leftmost first; true is lit (R10, R32, R33). -/
abbrev Grid := Vector (Vector Bool 64) 32

/-- The whole state of the CORE (R40), with its configuration (R5) and the model's own fields `draws` and `inputs`. -/
structure State where
  /-- V0 to VF (R20). -/
  v : Regs
  /-- The index register I (R24). -/
  index : Word
  /-- The program counter (R25). -/
  pc : Word
  /-- The call stack, the newest return address first; its length is SP (R27, R28). -/
  stack : List Word
  /-- The delay timer (R29). -/
  dt : Byte
  /-- The sound timer (R30). -/
  st : Byte
  /-- The key register; none is NONE (R31). -/
  key : Option Key
  /-- The display buffer (R32). -/
  disp : Grid
  /-- The dirty flag (R34). -/
  dirty : Bool
  /-- Memory (R50). -/
  mem : Memory
  /-- The run state (R35). -/
  run : RunState
  /-- The configuration, written by nothing (R36; log entry 1). -/
  cfg : Config
  /-- UNMATCHED_COUNT, read by no rule (R233; log entry 24). -/
  unmatchedCount : Nat
  /-- MODEL'S OWN: how many random bytes have been drawn (log entry 18). -/
  draws : Nat
  /-- MODEL'S OWN: the host's transactions at the coming step boundaries, oldest first (log entry 4). -/
  inputs : List HostInput
  deriving DecidableEq, Repr

/-- The start state of R41 and R68 with an empty ROM: what the spec gives, and the values log entries 1 to 4, 18 and 26 name. -/
def State.reset : State :=
  { v := Vector.replicate 16 0
    index := 0
    pc := 0x200
    stack := []
    dt := 0
    st := 0
    key := none
    disp := Vector.replicate 32 (Vector.replicate 64 false)
    dirty := false
    mem := []
    run := .running
    cfg := Config.atReset
    unmatchedCount := 0
    draws := 0
    inputs := Config.hostInputs }

/-- Why the machine stops with a fault. -/
inductive Fault where
  /-- The CORE is HALTED and has no step (R110). Raised by `step` alone, in a HALTED state; no instruction's meaning raises it. SAFE: the hardware stops too. -/
  | halted (record : FaultRecord)
  deriving DecidableEq, Repr

/-- Why an instruction has no meaning. -/
inductive Refusal where
  /-- The instruction has no meaning in this model. Raised by nothing: every row of the opcode table is modelled. SAFE. -/
  | notModelled (mnemonic : String)
  deriving DecidableEq, Repr

end Sys2Proof.Machine
end

