-- ==== Sys2Proof/Machine/Ops.lean ====
section
/-! DEFINITION. The named operations over registers, memory, stack and display, the fatal conditions, and the tail of a cycle (the primitives of rule R8). -/

namespace Sys2Proof.Machine

/-- What one instruction, or one step, answers. -/
abbrev Result := Host.Outcome State Fault Refusal

/-! ## Registers (R20, R24, R25) -/

/-- `V[x]`. -/
def State.reg (s : State) (x : Reg) : Byte := s.v[x.val]

/-- `V[x] <- b`. -/
def State.setReg (s : State) (x : Reg) (b : Byte) : State := { s with v := s.v.set x.val b }

/-- `I <- w`. -/
def State.setIndex (s : State) (w : Word) : State := { s with index := w }

/-- `pc <- w`. -/
def State.setPc (s : State) (w : Word) : State := { s with pc := w }

/-! ## Memory (R50 to R55, R68) -/

/-- The number of bytes of the address space (R50). -/
def memSize : Nat := 0x1000

/-- What an address nothing is listed at reads as: the start contents, the font below 0x050 and zero above (R68; log entries 2 and 26). -/
def Memory.background (a : Nat) : Byte := Config.fontBytes.getD a 0

/-- `mem[a]` (R50). -/
def Memory.read : Memory → Nat → Byte
  | [], a => Memory.background a
  | (k, b) :: m, a => if a = k then b else Memory.read m a

/-- `mem[a] <- b`, keeping the canonical form. -/
def Memory.write : Memory → Nat → Byte → Memory
  | [], a, b => if b = Memory.background a then [] else [(a, b)]
  | (k, c) :: m, a, b =>
    if a < k then (if b = Memory.background a then (k, c) :: m else (a, b) :: (k, c) :: m)
    else if a = k then (if b = Memory.background a then m else (a, b) :: m)
    else (k, c) :: Memory.write m a b

/-- The canonical form from address `lo` on: addresses strictly rising and in the address space, no cell equal to the background. -/
def Memory.wfFrom : Nat → Memory → Bool
  | _, [] => true
  | lo, (k, b) :: m => decide (lo ≤ k) && decide (k < memSize) && (b != Memory.background k) && Memory.wfFrom (k + 1) m

/-- The canonical form of memory. -/
def Memory.wf (m : Memory) : Bool := Memory.wfFrom 0 m

/-! ## Fatal conditions (R220 to R225) -/

/-- The numeric code of a cause (R222, D26; log entry 25). -/
def Cause.code : Cause → Nat
  | .stackOverflow => 1
  | .stackUnderflow => 2
  | .memBounds => 3
  | .fontWrite => 4
  | .lowFetch => 5
  | .romUnreadable => 16
  | .romTooLarge => 17

/-- What a failed check reports: the cause and, for an access, the address. -/
structure Fatal where
  cause : Cause
  addr : Option Nat
  deriving DecidableEq, Repr

/-- The check of a read (R51, R54; log entry 8). -/
def checkRead (a : Nat) : Option Fatal :=
  if memSize ≤ a then some { cause := .memBounds, addr := some a } else none

/-- The checks of a write, bounds first (R55; log entries 8 and 9). -/
def checkWrite (a : Nat) : Option Fatal :=
  if memSize ≤ a then some { cause := .memBounds, addr := some a }
  else if a < 0x050 then some { cause := .fontWrite, addr := some a }
  else none

/-- The first check that fails, in the order given (R225). -/
def firstFailure (check : Nat → Option Fatal) : List Nat → Option Fatal
  | [] => none
  | a :: as =>
    match check a with
    | some f => some f
    | none => firstFailure check as

/-- TAKING A FATAL CONDITION, `raise Fatal(cause, info)`: nothing changes but the run state (R107, R221, R224; log entry 7). -/
def State.raise (s : State) (word : Option Word) (f : Fatal) : State :=
  { s with run := .halted { cause := f.cause, pc := some s.pc, word := word, addr := f.addr } }

/-- An instruction raises: the record names its own address and word (R224). -/
def fatal (i : Instr) (s : State) (f : Fatal) : Result := .next (s.raise (some (encode i)) f)

/-- `MemRead(addr, 1)` (R54). -/
def State.memRead1 (s : State) (a : Nat) : Except Fatal Byte :=
  match checkRead a with
  | some f => .error f
  | none => .ok (s.mem.read a)

/-- `MemRead(addr, 2)`, big-endian, each address checked in increasing order (R53, R54). -/
def State.memRead2 (s : State) (a : Nat) : Except Fatal Word :=
  match firstFailure checkRead [a, a + 1] with
  | some f => .error f
  | none => .ok (wordOfBytes (s.mem.read a) (s.mem.read (a + 1)))

/-- The write of `MemWrite(addr, 1, v)`; its checks are `checkWrite`, made before any write (R55, R223). -/
def State.poke (s : State) (a : Nat) (b : Byte) : State := { s with mem := s.mem.write a b }

/-! ## The call stack (R27, R28) -/

/-- The number of return addresses the stack holds at most (R27). -/
def stackDepth : Nat := 16

/-- `Push(a)` (R28). -/
def State.push (s : State) (a : Word) : Except Fatal State :=
  if s.stack.length < stackDepth then .ok { s with stack := a :: s.stack }
  else .error { cause := .stackOverflow, addr := none }

/-- `Pop()` (R28; log entry 11). -/
def State.pop (s : State) : Except Fatal (Word × State) :=
  match s.stack with
  | a :: rest => .ok (a, { s with stack := rest })
  | [] => .error { cause := .stackUnderflow, addr := none }

/-! ## The display (R32, R33) -/

/-- `Pixel(r, c)`. -/
def Grid.pixel (g : Grid) (r : Fin 32) (c : Fin 64) : Bool := g[r.val][c.val]

/-- `Pixel(r, c) <- b`. -/
def Grid.setPixel (g : Grid) (r : Fin 32) (c : Fin 64) (b : Bool) : Grid := g.set r.val (g[r.val].set c.val b)

/-- Every pixel unlit. -/
def Grid.clear : Grid := Vector.replicate 32 (Vector.replicate 64 false)

/-! ## The end of a cycle (R105, R106, R108, R120) -/

/-- The ST tick: one down, never below 0 (R105, R30). -/
def soundTick (st : Byte) : Byte := if st = 0 then 0 else st - 1

/-- `Tail()`: the ST tick, then pc + 2 unless `final` (R105, R106, R108). -/
def State.tail (s : State) (final : Bool) : State :=
  { s with st := soundTick s.st, pc := if final then s.pc else s.pc + 2 }

/-- The instruction is done and leaves `final` false. -/
def complete (s : State) : Result := .next (s.tail false)

/-- The instruction is done and has set `final`. -/
def completeFinal (s : State) : Result := .next (s.tail true)

/-- The skip, `pc <- pc + 2` inside the instruction, when `c` holds (R120). -/
def State.skipIf (s : State) (c : Bool) : State := { s with pc := if c then s.pc + 2 else s.pc }

end Sys2Proof.Machine
end

