-- ==== Sys2Proof/Machine/Operands.lean ====
section
/-! DEFINITION. The operand forms: immediates, the shift source, addresses through I, BCD digits, keys, sprite coordinates (rules R83, R149, R162, R163, R166, R182, R207). -/

namespace Sys2Proof.Machine

/-- `zext_16(nnn)` (R83). -/
def zextAddr (nnn : Addr12) : Word := nnn.setWidth 16

/-- `zext_16` of a byte. -/
def zextByte (b : Byte) : Word := b.setWidth 16

/-- The source of a shift: Vx with SHIFT_QUIRK, else Vy (R149, R151). -/
def shiftSource (s : State) (x y : Reg) : Byte := if s.cfg.shiftQuirk then s.reg x else s.reg y

/-- `I + 0 .. I + n - 1`, mathematical integers (R51, R166). -/
def dataAddrs (s : State) (n : Nat) : List Nat := (List.range n).map fun k => s.index.toNat + k

/-- V0 to VF in order. -/
def allRegs : List Reg := [0, 1, 2, 3, 4, 5, 6, 7, 8, 9, 10, 11, 12, 13, 14, 15]

/-- V0 to Vx inclusive, in order (R164, R165). -/
def regsUpTo (x : Reg) : List Reg := allRegs.filter fun r => decide (r ≤ x)

/-- I after FX55 and FX65: `trunc_16(base + x + 1)`, or unchanged with LOAD_STORE_QUIRK (R164, R165). -/
def indexAfterBlock (s : State) (x : Reg) : Word :=
  if s.cfg.loadStoreQuirk then s.index else s.index + BitVec.ofNat 16 (x.val + 1)

/-- The address of the sprite of digit `b`: `b * 5`, no mask (R59, R162). -/
def glyphAddr (b : Byte) : Word := BitVec.ofNat 16 (b.toNat * 5)

/-- Hundreds, tens and units (R163). -/
def bcdDigits (b : Byte) : List Byte :=
  [BitVec.ofNat 8 (b.toNat / 100), BitVec.ofNat 8 (b.toNat / 10 % 10), BitVec.ofNat 8 (b.toNat % 10)]

/-- `KeyEq(k, v)` on the full byte (R207; log entry 19). -/
def keyEq (k : Option Key) (b : Byte) : Bool :=
  match k with
  | some key => key.val == b.toNat
  | none => false

/-- The byte FX0A stores for a key (R204). -/
def keyByte (k : Key) : Byte := BitVec.ofNat 8 k.val

/-- The row of sprite row `i`: `(vy + i) mod 32` (R182). -/
def spriteRow (vy : Byte) (i : Nat) : Fin 32 := Fin.ofNat 32 (vy.toNat + i)

/-- The column of sprite bit `j`, 0 the leftmost: `(vx + j) mod 64` (R182). -/
def spriteCol (vx : Byte) (j : Nat) : Fin 64 := Fin.ofNat 64 (vx.toNat + j)

/-- Bit `j` of a sprite byte, the most significant first (R180, R182). -/
def spriteBit (b : Byte) (j : Nat) : Bool := b.getLsbD (7 - j)

end Sys2Proof.Machine
end

