-- ==== Sys2Proof/Machine/Flags.lean ====
section
/-! DEFINITION. The flag computations, all of VF (rules R21, R23, R140, R153, R183, R184). -/

namespace Sys2Proof.Machine

/-- 1 or 0. -/
def flagByte (b : Bool) : Byte := if b then 1 else 0

/-- The carry of an addition: the sum exceeds 255 (R142, R147). -/
def carryOf (a b : Byte) : Bool := decide (255 < a.toNat + b.toNat)

/-- NOT borrow of `a - b`: `a >= b` (R148, R150). -/
def noBorrow (a b : Byte) : Bool := decide (b.toNat ≤ a.toNat)

/-- The bit a right shift by one shifts out (R149). -/
def shrOut (src : Byte) : Bool := src.getLsbD 0

/-- The bit a left shift by one shifts out (R151). -/
def shlOut (src : Byte) : Bool := src.getLsbD 7

/-- Write a result to Vx, then the flag to VF: for x = F the flag stays (R23, R140; log entry 13). -/
def State.setResultFlag (s : State) (x : Reg) (result : Byte) (flag : Bool) : State :=
  (s.setReg x result).setReg VF (flagByte flag)

/-- VF after DRW. `last` is the last visited pixel before the draw (none when no pixel is visited); `collided` says that a set sprite bit met a lit pixel (R183, R184). -/
def State.setCollision (s : State) (last : Option Bool) (collided : Bool) : State :=
  match s.cfg.collisionMode with
  | .lastPixel =>
    match last with
    | some old => s.setReg VF (flagByte old)
    | none => s
  | .anyPixel => s.setReg VF (flagByte collided)

end Sys2Proof.Machine
end

