-- ==== Sys2Proof/Machine/Alu.lean ====
section
/-! DEFINITION. Register loads, arithmetic, logic, shifts and random (42_alu.md). -/

namespace Sys2Proof.Machine

/-- 6XKK LD Vx, kk (R141). -/
def execLdImm (x : Reg) (kk : Byte) (s : State) : Result := complete (s.setReg x kk)

/-- 7XKK ADD Vx, kk (R142). -/
def execAddImm (x : Reg) (kk : Byte) (s : State) : Result :=
  let a := s.reg x
  complete (s.setResultFlag x (a + kk) (carryOf a kk))

/-- 8XY0 LD Vx, Vy (R143). -/
def execLdReg (x y : Reg) (s : State) : Result := complete (s.setReg x (s.reg y))

/-- 8XY1 OR Vx, Vy (R144). -/
def execOr (x y : Reg) (s : State) : Result := complete (s.setReg x (s.reg x ||| s.reg y))

/-- 8XY2 AND Vx, Vy (R145). -/
def execAnd (x y : Reg) (s : State) : Result := complete (s.setReg x (s.reg x &&& s.reg y))

/-- 8XY3 XOR Vx, Vy (R146). -/
def execXor (x y : Reg) (s : State) : Result := complete (s.setReg x (s.reg x ^^^ s.reg y))

/-- 8XY4 ADD Vx, Vy (R147). -/
def execAddReg (x y : Reg) (s : State) : Result :=
  let a := s.reg x
  let b := s.reg y
  complete (s.setResultFlag x (a + b) (carryOf a b))

/-- 8XY5 SUB Vx, Vy (R148). -/
def execSub (x y : Reg) (s : State) : Result :=
  let a := s.reg x
  let b := s.reg y
  complete (s.setResultFlag x (a - b) (noBorrow a b))

/-- 8XY6 SHR Vx, Vy (R149). -/
def execShr (x y : Reg) (s : State) : Result :=
  let src := shiftSource s x y
  complete (s.setResultFlag x (src >>> 1) (shrOut src))

/-- 8XY7 SUBN Vx, Vy (R150). -/
def execSubn (x y : Reg) (s : State) : Result :=
  let a := s.reg x
  let b := s.reg y
  complete (s.setResultFlag x (b - a) (noBorrow b a))

/-- 8XYE SHL Vx, Vy (R151). -/
def execShl (x y : Reg) (s : State) : Result :=
  let src := shiftSource s x y
  complete (s.setResultFlag x (src <<< 1) (shlOut src))

/-- `RandomByte()`: the free value of this draw, and the state after it (R152; log entry 18). -/
def State.drawRandom (s : State) : Byte × State := (Config.randomByte s.draws, { s with draws := s.draws + 1 })

/-- CXKK RND Vx, kk (R152). -/
def execRnd (x : Reg) (kk : Byte) (s : State) : Result :=
  let r := s.drawRandom
  complete (r.2.setReg x (r.1 &&& kk))

end Sys2Proof.Machine
end

