-- ==== Sys2Proof/Machine/Control.lean ====
section
/-! DEFINITION. Control transfer, skips and the no-op of unmatched words (41_control.md; rules R88, R112). -/

namespace Sys2Proof.Machine

/-- 00EE RET (R122): `final` stays false, so the tail adds 2 to the popped address. -/
def execRet (s : State) : Result :=
  match s.pop with
  | .ok (a, t) => complete (t.setPc a)
  | .error f => fatal .ret s f

/-- 1NNN JP (R123). -/
def execJp (nnn : Addr12) (s : State) : Result := completeFinal (s.setPc (zextAddr nnn))

/-- 2NNN CALL (R124): pushes its own address (log entry 12). -/
def execCall (nnn : Addr12) (s : State) : Result :=
  match s.push s.pc with
  | .ok t => completeFinal (t.setPc (zextAddr nnn))
  | .error f => fatal (.call nnn) s f

/-- 3XKK SE Vx, kk (R125). -/
def execSeImm (x : Reg) (kk : Byte) (s : State) : Result := complete (s.skipIf (s.reg x == kk))

/-- 4XKK SNE Vx, kk (R126). -/
def execSneImm (x : Reg) (kk : Byte) (s : State) : Result := complete (s.skipIf (s.reg x != kk))

/-- 5XY0 SE Vx, Vy (R127). -/
def execSeReg (x y : Reg) (s : State) : Result := complete (s.skipIf (s.reg x == s.reg y))

/-- 9XY0 SNE Vx, Vy (R128). -/
def execSneReg (x y : Reg) (s : State) : Result := complete (s.skipIf (s.reg x != s.reg y))

/-- BNNN JP V0, nnn (R129). -/
def execJpV0 (nnn : Addr12) (s : State) : Result := completeFinal (s.setPc (zextAddr nnn + zextByte (s.reg 0)))

/-- An unmatched word: nothing but the tail, and the optional counter (R88, R112, R233; log entry 24). -/
def execNopUnmatched (_w : Word) (s : State) : Result := complete { s with unmatchedCount := s.unmatchedCount + 1 }

end Sys2Proof.Machine
end

