-- ==== Sys2Proof/Machine/Display.lean ====
section
/-! DEFINITION. The display buffer: CLS and DRW (44_display.md). -/

namespace Sys2Proof.Machine

/-- 00E0 CLS (R181, R185). -/
def execCls (s : State) : Result := complete { s with disp := Grid.clear, dirty := true }

/-- What the loop of DRW carries from pixel to pixel (R182). -/
structure Drawn where
  disp : Grid
  /-- The value before the draw of the last visited pixel. -/
  last : Option Bool
  /-- A set sprite bit has met a lit pixel. -/
  collided : Bool
  deriving DecidableEq, Repr

/-- One visited pixel: sprite row `i`, sprite bit `j` (R182). -/
def drawPixel (vx vy : Byte) (i j : Nat) (bit : Bool) (d : Drawn) : Drawn :=
  let r := spriteRow vy i
  let c := spriteCol vx j
  let old := d.disp.pixel r c
  { disp := d.disp.setPixel r c (old ^^ bit), last := some old, collided := d.collided || (bit && old) }

/-- One sprite row: the eight bits of its byte, leftmost first (R182). -/
def drawRow (vx vy : Byte) (i : Nat) (b : Byte) (d : Drawn) : Drawn :=
  (List.range 8).foldl (fun d j => drawPixel vx vy i j (spriteBit b j) d) d

/-- The sprite's rows from row `i` on, top first (R182). -/
def drawRows (vx vy : Byte) : Nat → List Byte → Drawn → Drawn
  | _, [], d => d
  | i, b :: bs, d => drawRows vx vy (i + 1) bs (drawRow vx vy i b d)

/-- The sprite of `n` bytes at I (R182). -/
def spriteBytes (s : State) (n : Nibble) : List Byte := (dataAddrs s n.toNat).map s.mem.read

/-- DXYN DRW Vx, Vy, n (R182 to R185): Vx, Vy, I and the mode are read once, before the loop (log entry 14). -/
def execDrw (x y : Reg) (n : Nibble) (s : State) : Result :=
  match firstFailure checkRead (dataAddrs s n.toNat) with
  | some f => fatal (.drw x y n) s f
  | none =>
    let d := drawRows (s.reg x) (s.reg y) 0 (spriteBytes s n) { disp := s.disp, last := none, collided := false }
    complete ({ s with disp := d.disp, dirty := true }.setCollision d.last d.collided)

end Sys2Proof.Machine
end

