-- ==== Sys2Proof/Machine/IndexMemory.lean ====
section
/-! DEFINITION. The index register, block stores and loads, BCD (43_index_memory.md). Every address is checked before anything is written (R223). -/

namespace Sys2Proof.Machine

/-- ANNN LD I, nnn (R160). -/
def execLdI (nnn : Addr12) (s : State) : Result := complete (s.setIndex (zextAddr nnn))

/-- FX1E ADD I, Vx (R161): modulo 2^16, no flag. -/
def execAddI (x : Reg) (s : State) : Result := complete (s.setIndex (s.index + zextByte (s.reg x)))

/-- FX29 LD F, Vx (R162). -/
def execLdF (x : Reg) (s : State) : Result := complete (s.setIndex (glyphAddr (s.reg x)))

/-- Store a list of bytes from an address upward. -/
def State.pokeList (s : State) : Nat → List Byte → State
  | _, [] => s
  | a, b :: bs => State.pokeList (s.poke a b) (a + 1) bs

/-- `for i in 0 .. x: MemWrite(base + i, 1, V[i])` (R164). -/
def State.storeRegs (s : State) (x : Reg) : State := s.pokeList s.index.toNat ((regsUpTo x).map s.reg)

/-- Load each register of a list from `base` plus its number. -/
def State.loadRegList (s : State) (base : Nat) : List Reg → State
  | [] => s
  | r :: rs => State.loadRegList (s.setReg r (s.mem.read (base + r.val))) base rs

/-- `for i in 0 .. x: V[i] <- MemRead(base + i, 1)` (R165). -/
def State.loadRegs (s : State) (x : Reg) : State := s.loadRegList s.index.toNat (regsUpTo x)

/-- FX33 LD B, Vx (R163). -/
def execLdBcd (x : Reg) (s : State) : Result :=
  match firstFailure checkWrite (dataAddrs s 3) with
  | some f => fatal (.ldBcd x) s f
  | none => complete (s.pokeList s.index.toNat (bcdDigits (s.reg x)))

/-- FX55 LD [I], Vx (R164). -/
def execLdMemVx (x : Reg) (s : State) : Result :=
  match firstFailure checkWrite (dataAddrs s (x.val + 1)) with
  | some f => fatal (.ldMemVx x) s f
  | none => complete ((s.storeRegs x).setIndex (indexAfterBlock s x))

/-- FX65 LD Vx, [I] (R165). -/
def execLdVxMem (x : Reg) (s : State) : Result :=
  match firstFailure checkRead (dataAddrs s (x.val + 1)) with
  | some f => fatal (.ldVxMem x) s f
  | none => complete ((s.loadRegs x).setIndex (indexAfterBlock s x))

end Sys2Proof.Machine
end

