-- ==== Sys2Proof/Machine/KeysTimers.lean ====
section
/-! DEFINITION. Keys and timers (45_timers_input.md). -/

namespace Sys2Proof.Machine

/-- EX9E SKP Vx (R200). -/
def execSkp (x : Reg) (s : State) : Result := complete (s.skipIf (keyEq s.key (s.reg x)))

/-- EXA1 SKNP Vx (R201). -/
def execSknp (x : Reg) (s : State) : Result := complete (s.skipIf (!keyEq s.key (s.reg x)))

/-- FX07 LD Vx, DT (R202). -/
def execLdVxDt (x : Reg) (s : State) : Result := complete (s.setReg x s.dt)

/-- FX0A LD Vx, K, the issue step (R203): the cycle stops here, with no tail; `keyWait` completes it. -/
def execLdVxK (x : Reg) (s : State) : Result := .next { s with run := .waitKey x }

/-- FX15 LD DT, Vx (R205). -/
def execLdDtVx (x : Reg) (s : State) : Result := complete { s with dt := s.reg x }

/-- FX18 LD ST, Vx (R206): the tail of the same cycle ticks the new ST. -/
def execLdStVx (x : Reg) (s : State) : Result := complete { s with st := s.reg x }

/-- The completion of FX0A when the host supplies a key (R109, R204). -/
def State.supplyKey (s : State) (x : Reg) (k : Key) : State :=
  { s.setReg x (keyByte k) with run := .running }.tail false

/-- A step in WAIT_KEY(x): the completion when a key is delivered; else the CORE goes on waiting, unchanged (R109, R204; log entry 5). -/
def keyWait (x : Reg) (delivered : Option Key) (s : State) : Result :=
  match delivered with
  | some k => .next (s.supplyKey x k)
  | none => .next s

end Sys2Proof.Machine
end

