-- ==== Sys2Proof/Machine/HostPort.lean ====
section
/-! DEFINITION. The host's part of a step boundary (60_exceptions.md rules R236 to R245; log entry 4). -/

namespace Sys2Proof.Machine

/-- What the host does at the coming boundary; nothing, when no transaction is listed. -/
def State.hostInput (s : State) : HostInput := s.inputs.headD HostInput.idle

/-- The key delivered through the wait-for-key handshake at the coming boundary, if one is (R239). -/
def State.deliveredKey (s : State) : Option Key := s.hostInput.deliverKey

/-- The host acts, before the step: it may write KEY and clear dirty, and nothing else of the CORE's state (R238, R240, R241). -/
def State.takeHostInput (s : State) : State :=
  { s with
    key := s.hostInput.writeKey.getD s.key
    dirty := s.dirty && !s.hostInput.clearDirty
    inputs := s.inputs.tail }

end Sys2Proof.Machine
end

