-- ==== Sys2Proof/Machine/Cycle.lean ====
section
/-! DEFINITION. Fetch and the cycle (40_cycle.md rules R100 to R108). -/

namespace Sys2Proof.Machine

/-- The lowest address of program text (R4, R102). -/
def programBase : Nat := 0x200

/-- The fetch: LOW_FETCH below 0x200, then the two bytes at pc, big-endian (R102, R225; log entry 10). -/
def State.fetch (s : State) : Except Fatal Word :=
  if s.pc.toNat < programBase then .error { cause := .lowFetch, addr := some s.pc.toNat }
  else s.memRead2 s.pc.toNat

/-- One cycle of a RUNNING core: a DT decrement and nothing else, or fetch, decode, execute and tail (R101, R102, R103, R108). -/
def cycle (s : State) : Result :=
  if s.dt = 0 then
    match s.fetch with
    | .error f => .next (s.raise none f)
    | .ok w => exec (decodeWord w) s
  else .next { s with dt := s.dt - 1 }

/-- The bytes of an instruction placed at pc and pc + 1, each where the address space has that address. -/
def State.placeAtPc (s : State) (bytes : List Byte) : State :=
  let put := fun (m : Memory) (k : Nat) =>
    let a := s.pc.toNat + k
    if a < memSize then m.write a (bytes.getD k 0) else m
  { s with mem := put (put s.mem 0) 1 }

end Sys2Proof.Machine
end

