-- ==== Sys2Proof/Machine/Step.lean ====
section
/-! DEFINITION. One step of the model, and the placing of an instruction where the next step fetches. -/

namespace Sys2Proof.Machine

/-- One step: the host acts at the boundary, then the CORE runs one cycle, or goes on waiting for a key; a HALTED core has no step (R100, R109, R110, R241; log entries 4 to 6). -/
def step (s : State) : Host.Outcome State Fault Refusal :=
  match s.run with
  | .running => cycle s.takeHostInput
  | .waitKey x => keyWait x s.deliveredKey s.takeHostInput
  | .halted r => .fault (.halted r)

/-- The state with that instruction where the next step fetches: its bytes at pc, the core RUNNING and DT 0, so that the next step executes (R101, R102; log entry 17). -/
def State.withFetchWord (s : State) (nbits w : Nat) : State :=
  { s.placeAtPc (tableBytes nbits w) with run := .running, dt := 0 }

end Sys2Proof.Machine
end

