-- ==== Sys2Proof/Machine/Load.lean ====
section
/-! DEFINITION. Start-up and ROM loading (70_reset_and_hazards.md rules R250 to R258). -/

namespace Sys2Proof.Machine

/-- The largest ROM that fits (R4, R257). -/
def maxRom : Nat := 3584

/-- Bytes placed in memory from an address upward. -/
def Memory.place (m : Memory) : Nat → List Byte → Memory
  | _, [] => m
  | a, b :: bs => Memory.place (m.write a b) (a + 1) bs

/-- Memory before the first cycle: zero, FONT at 0x000, the ROM bytes from 0x200, verbatim and in order (R68, R255). An odd length needs nothing: the next byte keeps its zero (R256). -/
def startMemory (font : Vector Byte 80) (rom : List Byte) : Memory :=
  Memory.place (Memory.place [] 0x000 font.toList) 0x200 rom

/-- The state a load-time fault leaves: HALTED before any cycle, memory without the ROM (R243, R251, R257, R258; log entry 16). DESIGN CHOICE: the rest is left at its start value, which the spec does not say (log entry 36). -/
def State.refuseRom (s : State) (c : Cause) : State :=
  { s with run := .halted { cause := c, pc := none, word := none, addr := none } }

/-- The start state under a configuration, with what the host does later and the ROM it supplies; `none` when it cannot supply one (R41, R68, R251, R255 to R258). DESIGN CHOICE: a refused start too holds the values of R41 in registers, pc, stack, timers, KEY, display and dirty, although R251 sets them only after the check that failed (log entry 36). -/
def State.start (cfg : Config) (inputs : List HostInput) (rom : Option (List Byte)) : State :=
  let blank : State := { State.reset with cfg := cfg, inputs := inputs, mem := startMemory cfg.font [] }
  match rom with
  | none => blank.refuseRom .romUnreadable
  | some bytes =>
    if maxRom < bytes.length then blank.refuseRom .romTooLarge
    else { blank with mem := startMemory cfg.font bytes }

end Sys2Proof.Machine
end

