-- ==== Sys2Proof/Safety.lean ====
section
/-! DEFINITION. What counts as a safe run, in the terms the statements use. -/

namespace Sys2Proof.Machine

/-- The byte at an address, as a data read sees it (R50). -/
def State.byteAt (s : State) (a : Nat) : Byte := s.mem.read a

/-- FONT is what memory holds below 0x050 (R52, R58). -/
def State.fontIntact (s : State) : Prop := ∀ a : Fin 80, s.byteAt a.val = s.cfg.font[a.val]

/-- The invariant of the machine: at most 16 return addresses (R27), memory in its canonical form and inside the address space (R50), FONT never mutated (R52). -/
structure State.Inv (s : State) : Prop where
  depth : s.stack.length ≤ 16
  canonical : s.mem.wf = true
  font : s.fontIntact

/-- The CORE is not halted by a fatal condition (R244). -/
def State.notHalted (s : State) : Prop := ∀ r, s.run ≠ .halted r

/-- The states a run from `s` reaches, the host's actions being those `s` lists. -/
inductive ReachableFrom (s : State) : State → Prop where
  | start : ReachableFrom s s
  | step {t u : State} (h : ReachableFrom s t) (hs : step t = .next u) : ReachableFrom s u

/-- A run from `s` is safe when no state it reaches is halted. -/
def SafeFrom (s : State) : Prop := ∀ t, ReachableFrom s t → t.notHalted

/-! ## The vocabulary of the statements, in the spec's integer arithmetic -/

/-- ST after one tick: one less, never below 0 (R105). -/
def ticked (st : Byte) : Byte := BitVec.ofNat 8 (st.toNat - 1)

/-- The words that match a row are exactly those that decode to the row's instruction with its fields (R81, R86). -/
def RowDecodes (mask value : Word) (build : Word → Instr) : Prop := ∀ w : Word, w &&& mask = value ↔ decodeWord w = build w

/-- The instruction completes; V then reads as `P`, pc has moved by 2, ST has ticked, and every other part of the state is as before. -/
def CompletesWithRegs (i : Instr) (s : State) (P : Reg → Byte) : Prop :=
  ∃ t, exec i s = .next t ∧ (∀ r, t.reg r = P r) ∧ t = { s with v := t.v, pc := s.pc + 2, st := ticked s.st }

/-- The instruction completes as a skip: pc moves by 4 when the condition holds, else by 2; ST ticks; nothing else changes (R120). -/
def CompletesAsSkip (i : Instr) (s : State) (taken : Bool) : Prop :=
  exec i s = .next { s with pc := s.pc + (if taken then 4 else 2), st := ticked s.st }

/-- The instruction raises the cause: the state is as before but for the run state, which holds a record of that cause (R107, R221). -/
def RaisesCause (i : Instr) (s : State) (c : Cause) : Prop :=
  ∃ r : FaultRecord, r.cause = c ∧ exec i s = .next { s with run := .halted r }

/-- The instruction raises a fatal condition with this cause and failing address; the record names the instruction's own address and word (R224). -/
def Raises (i : Instr) (s : State) (c : Cause) (addr : Option Nat) : Prop :=
  exec i s = .next { s with run := .halted { cause := c, pc := some s.pc, word := some (encode i), addr := addr } }

/-- The registers an instruction writes in the cycle that executes it (R21, and the destinations of 42 to 45). -/
def writesReg : Instr → Reg → Bool
  | .cls, _ => false
  | .ret, _ => false
  | .jp _, _ => false
  | .call _, _ => false
  | .seImm _ _, _ => false
  | .sneImm _ _, _ => false
  | .seReg _ _, _ => false
  | .ldImm x _, r => r == x
  | .addImm x _, r => r == x || r == VF
  | .ldReg x _, r => r == x
  | .or x _, r => r == x
  | .and x _, r => r == x
  | .xor x _, r => r == x
  | .addReg x _, r => r == x || r == VF
  | .sub x _, r => r == x || r == VF
  | .shr x _, r => r == x || r == VF
  | .subn x _, r => r == x || r == VF
  | .shl x _, r => r == x || r == VF
  | .sneReg _ _, _ => false
  | .ldI _, _ => false
  | .jpV0 _, _ => false
  | .rnd x _, r => r == x
  | .drw _ _ _, r => r == VF
  | .skp _, _ => false
  | .sknp _, _ => false
  | .ldVxDt x, r => r == x
  | .ldVxK _, _ => false
  | .ldDtVx _, _ => false
  | .ldStVx _, _ => false
  | .addI _, _ => false
  | .ldF _, _ => false
  | .ldBcd _, _ => false
  | .ldMemVx _, _ => false
  | .ldVxMem x, r => decide (r ≤ x)
  | .nopUnmatched _, _ => false

/-- The registers an instruction names as operands (R22, R129, R164, R165). -/
def namesReg : Instr → Reg → Bool
  | .cls, _ => false
  | .ret, _ => false
  | .jp _, _ => false
  | .call _, _ => false
  | .seImm x _, r => r == x
  | .sneImm x _, r => r == x
  | .seReg x y, r => r == x || r == y
  | .ldImm x _, r => r == x
  | .addImm x _, r => r == x
  | .ldReg x y, r => r == x || r == y
  | .or x y, r => r == x || r == y
  | .and x y, r => r == x || r == y
  | .xor x y, r => r == x || r == y
  | .addReg x y, r => r == x || r == y
  | .sub x y, r => r == x || r == y
  | .shr x y, r => r == x || r == y
  | .subn x y, r => r == x || r == y
  | .shl x y, r => r == x || r == y
  | .sneReg x y, r => r == x || r == y
  | .ldI _, _ => false
  | .jpV0 _, r => r == 0
  | .rnd x _, r => r == x
  | .drw x y _, r => r == x || r == y
  | .skp x, r => r == x
  | .sknp x, r => r == x
  | .ldVxDt x, r => r == x
  | .ldVxK x, r => r == x
  | .ldDtVx x, r => r == x
  | .ldStVx x, r => r == x
  | .addI x, r => r == x
  | .ldF x, r => r == x
  | .ldBcd x, r => r == x
  | .ldMemVx x, r => decide (r ≤ x)
  | .ldVxMem x, r => decide (r ≤ x)
  | .nopUnmatched _, _ => false

/-- How many bytes an instruction stores, from I on (R56). -/
def storedBytes : Instr → Nat
  | .ldBcd _ => 3
  | .ldMemVx x => x.val + 1
  | .cls | .ret | .jp _ | .call _ | .seImm _ _ | .sneImm _ _ | .seReg _ _ | .ldImm _ _ | .addImm _ _ | .ldReg _ _ | .or _ _
  | .and _ _ | .xor _ _ | .addReg _ _ | .sub _ _ | .shr _ _ | .subn _ _ | .shl _ _ | .sneReg _ _ | .ldI _ | .jpV0 _ | .rnd _ _
  | .drw _ _ _ | .skp _ | .sknp _ | .ldVxDt _ | .ldVxK _ | .ldDtVx _ | .ldStVx _ | .addI _ | .ldF _ | .ldVxMem _
  | .nopUnmatched _ => 0

/-- How many bytes of data an instruction accesses, from I on (R56). -/
def accessedBytes : Instr → Nat
  | .ldBcd _ => 3
  | .ldMemVx x => x.val + 1
  | .ldVxMem x => x.val + 1
  | .drw _ _ n => n.toNat
  | .cls | .ret | .jp _ | .call _ | .seImm _ _ | .sneImm _ _ | .seReg _ _ | .ldImm _ _ | .addImm _ _ | .ldReg _ _ | .or _ _
  | .and _ _ | .xor _ _ | .addReg _ _ | .sub _ _ | .shr _ _ | .subn _ _ | .shl _ _ | .sneReg _ _ | .ldI _ | .jpV0 _ | .rnd _ _
  | .skp _ | .sknp _ | .ldVxDt _ | .ldVxK _ | .ldDtVx _ | .ldStVx _ | .addI _ | .ldF _ | .nopUnmatched _ => 0

/-- PC after an instruction that completes (the table of R26); for RET, with a return address on the stack. -/
def netPc (s : State) : Instr → Word
  | .jp nnn => BitVec.ofNat 16 nnn.toNat
  | .call nnn => BitVec.ofNat 16 nnn.toNat
  | .jpV0 nnn => BitVec.ofNat 16 (nnn.toNat + (s.reg 0).toNat)
  | .ret => s.stack.headD 0 + 2
  | .seImm x kk => if s.reg x = kk then s.pc + 4 else s.pc + 2
  | .sneImm x kk => if s.reg x ≠ kk then s.pc + 4 else s.pc + 2
  | .seReg x y => if s.reg x = s.reg y then s.pc + 4 else s.pc + 2
  | .sneReg x y => if s.reg x ≠ s.reg y then s.pc + 4 else s.pc + 2
  | .skp x => if ∃ k, s.key = some k ∧ k.val = (s.reg x).toNat then s.pc + 4 else s.pc + 2
  | .sknp x => if ∃ k, s.key = some k ∧ k.val = (s.reg x).toNat then s.pc + 2 else s.pc + 4
  | .cls | .ldImm _ _ | .addImm _ _ | .ldReg _ _ | .or _ _ | .and _ _ | .xor _ _ | .addReg _ _ | .sub _ _ | .shr _ _ | .subn _ _
  | .shl _ _ | .ldI _ | .rnd _ _ | .drw _ _ _ | .ldVxDt _ | .ldVxK _ | .ldDtVx _ | .ldStVx _ | .addI _ | .ldF _ | .ldBcd _
  | .ldMemVx _ | .ldVxMem _ | .nopUnmatched _ => s.pc + 2

/-- Sprite bit under a pixel: the sprite of `n` rows at I, placed with its top left corner at (vx mod 64, vy mod 32) and wrapping at both edges (R182). -/
def spriteCovers (s : State) (vx vy : Byte) (n : Nat) (r : Fin 32) (c : Fin 64) : Prop :=
  ∃ i < n, ∃ j < 8, r.val = (vy.toNat + i) % 32 ∧ c.val = (vx.toNat + j) % 64 ∧
    (s.byteAt (s.index.toNat + i)).toNat / 2 ^ (7 - j) % 2 = 1

end Sys2Proof.Machine
end

