-- ==== Sys2Proof/Certificates/Slice0/Obligations.lean ====
section
/-! DEFINITION. The statements for the provers, one `def Obligations.<Name> : Prop` each; OBLIGATIONS.json gives their tiers, bases and cites. -/

open Sys2Proof Sys2Proof.Machine

/-! ## Encoding (30_encoding.md) -/

/-- Words written out from the encodings of R81 to R88 decode to their instructions, one or more of each of the sixteen families of R84. That 8128 and FFFF are unmatched is the spec's choice D17, every fixed digit must match (log entry 21); that the no-op keeps its word is the model's (log entry 35). -/
def Obligations.SampleWordsDecode : Prop :=
  decodeWord 0x00E0 = .cls ∧ decodeWord 0x1234 = .jp 0x234 ∧ decodeWord 0x2ABC = .call 0xABC ∧ decodeWord 0x3A5C = .seImm 0xA 0x5C ∧
  decodeWord 0x4B6D = .sneImm 0xB 0x6D ∧ decodeWord 0x51E0 = .seReg 1 0xE ∧ decodeWord 0x6C7F = .ldImm 0xC 0x7F ∧
  decodeWord 0x7D81 = .addImm 0xD 0x81 ∧ decodeWord 0x8BC5 = .sub 0xB 0xC ∧ decodeWord 0x8128 = .nopUnmatched 0x8128 ∧
  decodeWord 0x92F0 = .sneReg 2 0xF ∧ decodeWord 0xA300 = .ldI 0x300 ∧ decodeWord 0xB456 = .jpV0 0x456 ∧ decodeWord 0xC93E = .rnd 9 0x3E ∧
  decodeWord 0xD7E5 = .drw 7 0xE 5 ∧ decodeWord 0xE39E = .skp 3 ∧ decodeWord 0xF533 = .ldBcd 5 ∧ decodeWord 0xFFFF = .nopUnmatched 0xFFFF

/-- The unmatched words are exactly those whose sub-opcode is not one of the listed values; that every fixed digit must match is the spec's choice D17 (log entry 21). -/
def Obligations.SubOpcodesAreExactlyListed : Prop :=
  ∀ w : Word, (decodeWord w).mnemonic = "NOP_UNMATCHED" ↔
    (opField w = 0x0 ∧ w ≠ 0x00E0 ∧ w ≠ 0x00EE) ∨
    (opField w = 0x5 ∧ nField w ≠ 0x0) ∨ (opField w = 0x9 ∧ nField w ≠ 0x0) ∨
    (opField w = 0x8 ∧ nField w ∉ ([0x0, 0x1, 0x2, 0x3, 0x4, 0x5, 0x6, 0x7, 0xE] : List Nibble)) ∨
    (opField w = 0xE ∧ kkField w ∉ ([0x9E, 0xA1] : List Byte)) ∨
    (opField w = 0xF ∧ kkField w ∉ ([0x07, 0x0A, 0x15, 0x18, 0x1E, 0x29, 0x33, 0x55, 0x65] : List Byte))

/-- At most one of the 34 rows matches a word, the decoder gives the matching row's mnemonic, and NOP_UNMATCHED when none matches (R86, R91). That every fixed digit must match is the spec's choice D17 (log entry 21); that the no-op keeps its word is the model's (log entry 35). -/
def Obligations.DecodingFollowsTheOpcodeTable : Prop :=
  ∀ w : Word,
    (∀ r ∈ instructionRows, r.matchesWord w = true →
      (decodeWord w).mnemonic = r.mnemonic ∧ ∀ r' ∈ instructionRows, r'.matchesWord w = true → r' = r) ∧
    (unmatchedWord w = true → decodeWord w = .nopUnmatched w)

/-- Decoding the bytes of a well-formed instruction gives it back, with the bytes that follow; no operand bit is dropped. The no-op's word, and that it is well formed for unmatched words only, are the model's (log entry 35). -/
def Obligations.DecodeOfEncode : Prop :=
  ∀ (i : Instr) (rest : List Byte), i.wellFormed = true → decode (encodeBytes i ++ rest) = .ok (i, rest)

/-- Every word decodes to a well-formed instruction whose encoding is that word; for an unmatched word because the model's no-op keeps it (log entry 35). -/
def Obligations.EncodeOfDecode : Prop :=
  ∀ w : Word, (decodeWord w).wellFormed = true ∧ encode (decodeWord w) = w

/-! ## The cycle and the step (40_cycle.md) -/

/-- A RUNNING core with DT = 0 whose bytes at pc decode to `i` executes `i`, after the host's action at the boundary (log entry 4); `exec` includes the tail. -/
def Obligations.StepRunsTheDecodedInstruction : Prop :=
  ∀ (s : State) (i : Instr), s.run = .running → s.dt = 0 → 0x200 ≤ s.pc.toNat → s.pc.toNat + 1 < 0x1000 →
    decode [s.byteAt s.pc.toNat, s.byteAt (s.pc.toNat + 1)] = .ok (i, []) → step s = exec i s.takeHostInput

/-- The host changes KEY and dirty alone, and only as it chooses: it may set KEY to any value and clear dirty; and no step writes KEY, FX0A and its completion included. The spec's choices D15, D25; the list of the host's transactions is the model's (log entries 4, 19, 34). -/
def Obligations.KeyChangesByTheHostOnly : Prop :=
  (∀ s : State,
    s.takeHostInput = { s with key := s.takeHostInput.key, dirty := s.takeHostInput.dirty, inputs := s.inputs.tail } ∧
    (∀ h rest, s.inputs = h :: rest →
      (∀ k, h.writeKey = some k → s.takeHostInput.key = k) ∧ (h.writeKey = none → s.takeHostInput.key = s.key) ∧
      (h.clearDirty = true → s.takeHostInput.dirty = false) ∧ (h.clearDirty = false → s.takeHostInput.dirty = s.dirty)) ∧
    (s.inputs = [] → s.takeHostInput = s)) ∧
  ∀ s t : State, step s = .next t → t.key = s.takeHostInput.key ∧ t.inputs = s.inputs.tail

/-- A cycle that starts with DT not 0 decrements DT and does nothing else. That the host's listed act comes first, in the same step, is the model's choice (log entry 4). -/
def Obligations.DelayStallDecrementsDtOnly : Prop :=
  ∀ s : State, s.run = .running → s.dt ≠ 0 → step s = .next { s.takeHostInput with dt := BitVec.ofNat 8 (s.dt.toNat - 1) }

/-- With DT = n the next n cycles only count DT down; after m of them DT is n - m, and but for the host's KEY and dirty nothing else has changed. The host's list is the model's (log entry 4). -/
def Obligations.DelayOfNStallsNCycles : Prop :=
  ∀ (s : State) (m : Nat), s.run = .running → m ≤ s.dt.toNat →
    ∃ t : State, Host.Core.run core m s = .next t ∧
      t = { s with dt := BitVec.ofNat 8 (s.dt.toNat - m), key := t.key, dirty := t.dirty, inputs := s.inputs.drop m }

/-- A fetch below 0x200 raises LOW_FETCH; a fetch whose second byte lies at 0x1000 or above raises MEM_BOUNDS at the first such address; the record has no word, and nothing else changes. The spec's choices D1, D3, D27, and D19 for the record and for nothing else changing (log entries 8, 10, 25, 7); the host's act comes first (log entry 4). -/
def Obligations.FetchFaults : Prop :=
  ∀ s : State, s.run = .running → s.dt = 0 →
    (s.pc.toNat < 0x200 → step s = .next { s.takeHostInput with
      run := .halted { cause := .lowFetch, pc := some s.pc, word := none, addr := some s.pc.toNat } }) ∧
    (0x1000 ≤ s.pc.toNat + 1 → step s = .next { s.takeHostInput with
      run := .halted { cause := .memBounds, pc := some s.pc, word := none, addr := some (if 0x1000 ≤ s.pc.toNat then s.pc.toNat else s.pc.toNat + 1) } })

/-- A HALTED core has no step, whatever the host does: the model answers the fault `halted` with its record, which is the model's choice (log entry 6). -/
def Obligations.HaltedHasNoStep : Prop :=
  ∀ (s : State) (r : FaultRecord), s.run = .halted r → ∀ inputs, step { s with inputs := inputs } = .fault (.halted r)

/-- Every step of a core that is not halted answers a next state, and every instruction does: there is no illegal-instruction trap and nothing is refused. The model's choices: a wait without a delivery is a next state (log entry 5), a HALTED core answers a fault (log entry 6), a fatal condition is a next state (log entry 7). -/
def Obligations.StepAnswersUnlessHalted : Prop :=
  (∀ (i : Instr) (s : State), ∃ t, exec i s = .next t) ∧ ∀ s : State, (∃ t, step s = .next t) ↔ s.notHalted

/-- PC after an instruction that completes is the one of the table of R26; before a key arrives, and after a fatal condition, it is the instruction's own address. Which instructions are final is the spec's reading D5, the wait its choice D16, the precise fault its choice D19, the comparison of SKP and SKNP on the full byte its choice D14 (log entries 12, 20, 7, 19). -/
def Obligations.NetProgramCounter : Prop :=
  ∀ (i : Instr) (s t : State), s.run = .running → exec i s = .next t →
    (t.run = .running → t.pc = netPc s i) ∧ (t.run ≠ .running → t.pc = s.pc)

/-- ST ticks once in every cycle that executes an instruction, after it (so FX18's own cycle ticks the new value), and once when a key ends a wait; it does not tick in a stall cycle, nor while waiting, nor when FX0A issues, a fatal condition is raised or the fetch faults. The ticks around a wait are the spec's choice D16, that a fault leaves ST its choice D19 (log entries 20, 7). -/
def Obligations.SoundTimerTicksAfterEachInstruction : Prop :=
  (∀ (i : Instr) (s t : State), s.run = .running → exec i s = .next t → t.run = .running →
    t.st = ticked (match i with | .ldStVx x => s.reg x | _ => s.st)) ∧
  (∀ (i : Instr) (s t : State), s.run = .running → exec i s = .next t → t.run ≠ .running → t.st = s.st) ∧
  (∀ s t : State, s.run = .running → step s = .next t → t.run ≠ .running → t.st = s.st) ∧
  (∀ s t : State, s.run = .running → s.dt ≠ 0 → step s = .next t → t.st = s.st) ∧
  (∀ (s t : State) (x : Reg), s.run = .waitKey x → step s = .next t →
    (t.run = .running → t.st = ticked s.st) ∧ (t.run ≠ .running → t.st = s.st))

/-- DT changes in three ways only: a stall cycle takes one from it, FX15 writes it, and nothing else touches it, a fetch fault and a key wait included; so it never passes below 0. That it stands still in a wait is the spec's choice D16, in a fault its choice D19 (log entries 20, 7). -/
def Obligations.DelayTimerChangesOnlyByStallOrFX15 : Prop :=
  (∀ (i : Instr) (s t : State), exec i s = .next t → t.dt = match i with | .ldDtVx x => s.reg x | _ => s.dt) ∧
  (∀ s t : State, step s = .next t → s.run = .running → s.dt ≠ 0 → t.dt.toNat + 1 = s.dt.toNat) ∧
  (∀ s t : State, step s = .next t → s.run = .running → s.dt = 0 → t.dt = 0 ∨
    ∃ x, decode [s.byteAt s.pc.toNat, s.byteAt (s.pc.toNat + 1)] = .ok (.ldDtVx x, []) ∧ t.dt = s.reg x) ∧
  (∀ (s t : State) (x : Reg), step s = .next t → s.run = .waitKey x → t.dt = s.dt)

/-! ## Control transfer (41_control.md) -/

/-- 1NNN JP: pc is nnn. BNNN JP V0: pc is nnn + V0, not reduced to 12 bits. No + 2 in either; ST ticks; nothing else changes (R123, R129). -/
def Obligations.JumpsAreFinal : Prop :=
  RowDecodes 0xF000 0x1000 (fun w => .jp (nnnField w)) ∧
  RowDecodes 0xF000 0xB000 (fun w => .jpV0 (nnnField w)) ∧
  ∀ (nnn : Addr12) (s : State),
    exec (.jp nnn) s = .next { s with pc := BitVec.ofNat 16 nnn.toNat, st := ticked s.st } ∧
    ∃ t, exec (.jpV0 nnn) s = .next t ∧ t.pc.toNat = nnn.toNat + (s.reg 0).toNat ∧
      t = { s with pc := t.pc, st := ticked s.st }

/-- 2NNN CALL: below 16 return addresses it pushes its own address and goes to nnn; with 16 it raises STACK_OVERFLOW and changes nothing else. That it pushes its own address and is final is the spec's choice D5 (log entry 12), that the fault is precise its choice D19 (log entry 7). -/
def Obligations.CallPushesItsOwnAddress : Prop :=
  RowDecodes 0xF000 0x2000 (fun w => .call (nnnField w)) ∧
  ∀ (nnn : Addr12) (s : State),
    (s.stack.length < 16 →
      exec (.call nnn) s = .next { s with stack := s.pc :: s.stack, pc := BitVec.ofNat 16 nnn.toNat, st := ticked s.st }) ∧
    (16 ≤ s.stack.length → RaisesCause (.call nnn) s .stackOverflow)

/-- 00EE RET: pops the newest return address and goes two past it; on an empty stack it raises STACK_UNDERFLOW, the spec's choice D4, and the + 2 is its choice D5 (log entries 11, 12). -/
def Obligations.ReturnPopsAndAddsTwo : Prop :=
  RowDecodes 0xFFFF 0x00EE (fun _ => .ret) ∧
  ∀ s : State,
    (∀ a rest, s.stack = a :: rest → exec .ret s = .next { s with stack := rest, pc := a + 2, st := ticked s.st }) ∧
    (s.stack = [] → Raises .ret s .stackUnderflow none)

/-- A RET with the stack a CALL left goes to the instruction after the CALL and restores the caller's stack, whatever ran in between. Which address is pushed and where the + 2 falls is the spec's choice D5 (log entry 12). -/
def Obligations.ReturnUndoesCall : Prop :=
  ∀ (nnn : Addr12) (s : State), s.stack.length < 16 →
    ∃ t, exec (.call nnn) s = .next t ∧ t.pc.toNat = nnn.toNat ∧ t.stack.length = s.stack.length + 1 ∧
      ∀ u : State, u.stack = t.stack → ∃ v, exec .ret u = .next v ∧ v.pc = s.pc + 2 ∧ v.stack = s.stack

/-- 3XKK SE and 4XKK SNE: skip when Vx equals, or differs from, kk; that a skip adds 2 to the ordinary advance is the spec's reading D5 (log entry 12). -/
def Obligations.SkipsOnImmediate : Prop :=
  RowDecodes 0xF000 0x3000 (fun w => .seImm (xField w) (kkField w)) ∧
  RowDecodes 0xF000 0x4000 (fun w => .sneImm (xField w) (kkField w)) ∧
  ∀ (x : Reg) (kk : Byte) (s : State),
    CompletesAsSkip (.seImm x kk) s (decide (s.reg x = kk)) ∧ CompletesAsSkip (.sneImm x kk) s (decide (s.reg x ≠ kk))

/-- 5XY0 SE and 9XY0 SNE: skip when Vx equals, or differs from, Vy; that 5XYn and 9XYn with n not 0 are not these instructions, and that a skip adds 2 to the ordinary advance, are the spec's choices D17, D5 (log entries 21, 12). -/
def Obligations.SkipsOnRegisters : Prop :=
  RowDecodes 0xF00F 0x5000 (fun w => .seReg (xField w) (yField w)) ∧
  RowDecodes 0xF00F 0x9000 (fun w => .sneReg (xField w) (yField w)) ∧
  ∀ (x y : Reg) (s : State),
    CompletesAsSkip (.seReg x y) s (decide (s.reg x = s.reg y)) ∧ CompletesAsSkip (.sneReg x y) s (decide (s.reg x ≠ s.reg y))

/-- An unmatched word does nothing but the tail: ST ticks and pc advances by 2 (R112). The optional counter, which no rule reads, is left out of the comparison (the spec's choice D22, log entry 24). -/
def Obligations.UnmatchedWordIsNoOp : Prop :=
  ∀ (w : Word) (s : State), ∃ t, exec (.nopUnmatched w) s = .next t ∧
    { t with unmatchedCount := s.unmatchedCount } = { s with pc := s.pc + 2, st := ticked s.st }

/-- The idle state of R244 (b): a self-jump at pc repeats for ever and changes nothing but ST, beside the host's KEY and dirty. The idle state is the spec's choice D24; the host's list is the model's (log entry 4). -/
def Obligations.SelfJumpIsIdle : Prop :=
  ∀ (s : State) (nnn : Addr12), s.run = .running → s.dt = 0 → 0x200 ≤ s.pc.toNat → s.pc.toNat + 1 < 0x1000 →
    decode [s.byteAt s.pc.toNat, s.byteAt (s.pc.toNat + 1)] = .ok (.jp nnn, []) → nnn.toNat = s.pc.toNat →
    ∀ m, ∃ t : State, Host.Core.run core m s = .next t ∧
      t = { s with st := BitVec.ofNat 8 (s.st.toNat - m), key := t.key, dirty := t.dirty, inputs := s.inputs.drop m }

/-! ## Arithmetic and logic (42_alu.md) -/

/-- 6XKK LD and 8XY0 LD: Vx is kk, or Vy; no flag (R141, R143). -/
def Obligations.LoadsOfImmediateAndRegister : Prop :=
  RowDecodes 0xF000 0x6000 (fun w => .ldImm (xField w) (kkField w)) ∧
  RowDecodes 0xF00F 0x8000 (fun w => .ldReg (xField w) (yField w)) ∧
  ∀ (x y : Reg) (kk : Byte) (s : State),
    CompletesWithRegs (.ldImm x kk) s (fun r => if r = x then kk else s.reg r) ∧
    CompletesWithRegs (.ldReg x y) s (fun r => if r = x then s.reg y else s.reg r)

/-- 7XKK ADD and 8XY4 ADD: Vx is the sum modulo 256 and VF is 1 when the sum exceeds 255, else 0; for x = F the flag wins, the spec's choice D6 (log entry 13). -/
def Obligations.AdditionsSetCarry : Prop :=
  RowDecodes 0xF000 0x7000 (fun w => .addImm (xField w) (kkField w)) ∧
  RowDecodes 0xF00F 0x8004 (fun w => .addReg (xField w) (yField w)) ∧
  ∀ (x y : Reg) (kk : Byte) (s : State),
    (CompletesWithRegs (.addImm x kk) s fun r =>
      if r = VF then (if (s.reg x).toNat + kk.toNat > 255 then 1 else 0)
      else if r = x then BitVec.ofNat 8 ((s.reg x).toNat + kk.toNat) else s.reg r) ∧
    (CompletesWithRegs (.addReg x y) s fun r =>
      if r = VF then (if (s.reg x).toNat + (s.reg y).toNat > 255 then 1 else 0)
      else if r = x then BitVec.ofNat 8 ((s.reg x).toNat + (s.reg y).toNat) else s.reg r)

/-- 8XY1 OR, 8XY2 AND, 8XY3 XOR: Vx is the bitwise result, bit by bit, and VF changes only as the destination (R144 to R146). -/
def Obligations.BitwiseLogicLeavesVF : Prop :=
  RowDecodes 0xF00F 0x8001 (fun w => .or (xField w) (yField w)) ∧
  RowDecodes 0xF00F 0x8002 (fun w => .and (xField w) (yField w)) ∧
  RowDecodes 0xF00F 0x8003 (fun w => .xor (xField w) (yField w)) ∧
  ∀ (x y : Reg) (s : State),
    CompletesWithRegs (.or x y) s (fun r => if r = x then BitVec.ofNat 8 ((s.reg x).toNat ||| (s.reg y).toNat) else s.reg r) ∧
    CompletesWithRegs (.and x y) s (fun r => if r = x then BitVec.ofNat 8 ((s.reg x).toNat &&& (s.reg y).toNat) else s.reg r) ∧
    CompletesWithRegs (.xor x y) s (fun r => if r = x then BitVec.ofNat 8 ((s.reg x).toNat ^^^ (s.reg y).toNat) else s.reg r)

/-- 8XY5 SUB and 8XY7 SUBN: Vx is the difference modulo 256 and VF is 1 when there is no borrow; for x = F the flag wins, the spec's choice D6 (log entry 13). -/
def Obligations.SubtractSetsNotBorrow : Prop :=
  RowDecodes 0xF00F 0x8005 (fun w => .sub (xField w) (yField w)) ∧
  RowDecodes 0xF00F 0x8007 (fun w => .subn (xField w) (yField w)) ∧
  ∀ (x y : Reg) (s : State),
    (CompletesWithRegs (.sub x y) s fun r =>
      if r = VF then (if (s.reg x).toNat ≥ (s.reg y).toNat then 1 else 0)
      else if r = x then BitVec.ofInt 8 (((s.reg x).toNat : Int) - ((s.reg y).toNat : Int)) else s.reg r) ∧
    (CompletesWithRegs (.subn x y) s fun r =>
      if r = VF then (if (s.reg y).toNat ≥ (s.reg x).toNat then 1 else 0)
      else if r = x then BitVec.ofInt 8 (((s.reg y).toNat : Int) - ((s.reg x).toNat : Int)) else s.reg r)

/-- 8XY6 SHR and 8XYE SHL: the source is Vx with SHIFT_QUIRK, else Vy; VF is the bit shifted out, and for x = F the flag wins, the spec's choice D6 (log entry 13). Both values of the quirk are covered. -/
def Obligations.ShiftsByOneSetShiftedOutBit : Prop :=
  RowDecodes 0xF00F 0x8006 (fun w => .shr (xField w) (yField w)) ∧
  RowDecodes 0xF00F 0x800E (fun w => .shl (xField w) (yField w)) ∧
  ∀ (x y : Reg) (s : State) (src : Byte), src = (if s.cfg.shiftQuirk = true then s.reg x else s.reg y) →
    (CompletesWithRegs (.shr x y) s fun r =>
      if r = VF then BitVec.ofNat 8 (src.toNat % 2) else if r = x then BitVec.ofNat 8 (src.toNat / 2) else s.reg r) ∧
    (CompletesWithRegs (.shl x y) s fun r =>
      if r = VF then BitVec.ofNat 8 (src.toNat / 128) else if r = x then BitVec.ofNat 8 (2 * src.toNat) else s.reg r)

/-- CXKK RND: Vx is a random byte AND kk, so no bit outside kk; the byte is the free value of this draw, and the next execution draws another (the spec's choice D13, log entry 18). -/
def Obligations.RandomByteIsMasked : Prop :=
  RowDecodes 0xF000 0xC000 (fun w => .rnd (xField w) (kkField w)) ∧
  ∀ (x : Reg) (kk : Byte) (s : State), ∃ t, exec (.rnd x kk) s = .next t ∧
    (∀ r, t.reg r = if r = x then BitVec.ofNat 8 ((Config.randomByte s.draws).toNat &&& kk.toNat) else s.reg r) ∧
    t = { s with v := t.v, pc := s.pc + 2, st := ticked s.st, draws := s.draws + 1 } ∧
    t.reg x &&& kk = t.reg x

/-! ## Index register and memory (43_index_memory.md) -/

/-- ANNN LD I: I is nnn. FX29 LD F: I is Vx times 5, from the full byte, exactly. No flag (R160, R162). -/
def Obligations.LoadsOfIndex : Prop :=
  RowDecodes 0xF000 0xA000 (fun w => .ldI (nnnField w)) ∧
  RowDecodes 0xF0FF 0xF029 (fun w => .ldF (xField w)) ∧
  (∀ (nnn : Addr12) (s : State),
    exec (.ldI nnn) s = .next { s with index := BitVec.ofNat 16 nnn.toNat, pc := s.pc + 2, st := ticked s.st }) ∧
  ∀ (x : Reg) (s : State), ∃ t, exec (.ldF x) s = .next t ∧ t.index.toNat = (s.reg x).toNat * 5 ∧
    t = { s with index := t.index, pc := s.pc + 2, st := ticked s.st }

/-- FX1E ADD: I is I + Vx modulo 2^16, no flag; the wrap is the spec's choice D20 (log entry 22). -/
def Obligations.AddToIndexSetsNoFlag : Prop :=
  RowDecodes 0xF0FF 0xF01E (fun w => .addI (xField w)) ∧
  ∀ (x : Reg) (s : State), exec (.addI x) s =
    .next { s with index := BitVec.ofNat 16 (s.index.toNat + (s.reg x).toNat), pc := s.pc + 2, st := ticked s.st }

/-- FX33 LD B: with I to I + 2 in memory above the font, hundreds, tens and units go to I, I + 1, I + 2; every other byte reads as before, I and V are unchanged. The bounds are the spec's choices D1, D2 (log entries 8, 9). -/
def Obligations.BcdStoresThreeDigits : Prop :=
  RowDecodes 0xF0FF 0xF033 (fun w => .ldBcd (xField w)) ∧
  ∀ (x : Reg) (s : State), s.mem.wf = true → 0x050 ≤ s.index.toNat → s.index.toNat + 2 < 0x1000 →
    ∃ t, exec (.ldBcd x) s = .next t ∧ t = { s with mem := t.mem, pc := s.pc + 2, st := ticked s.st } ∧
      (t.byteAt s.index.toNat).toNat = (s.reg x).toNat / 100 ∧
      (t.byteAt (s.index.toNat + 1)).toNat = (s.reg x).toNat / 10 % 10 ∧
      (t.byteAt (s.index.toNat + 2)).toNat = (s.reg x).toNat % 10 ∧
      ∀ a, a < s.index.toNat ∨ s.index.toNat + 2 < a → t.byteAt a = s.byteAt a

/-- FX55 LD [I]: with I to I + x in memory above the font, V0 to Vx go to I to I + x; every other byte reads as before; I becomes I + x + 1 unless LOAD_STORE_QUIRK. The bounds are the spec's choices D1, D2 (log entries 8, 9). -/
def Obligations.BlockStoreWritesV0ToVx : Prop :=
  RowDecodes 0xF0FF 0xF055 (fun w => .ldMemVx (xField w)) ∧
  ∀ (x : Reg) (s : State), s.mem.wf = true → 0x050 ≤ s.index.toNat → s.index.toNat + x.val < 0x1000 →
    ∃ t, exec (.ldMemVx x) s = .next t ∧
      t = { s with
        mem := t.mem, pc := s.pc + 2, st := ticked s.st
        index := if s.cfg.loadStoreQuirk = true then s.index else BitVec.ofNat 16 (s.index.toNat + x.val + 1) } ∧
      (∀ r : Reg, r ≤ x → t.byteAt (s.index.toNat + r.val) = s.reg r) ∧
      ∀ a, a < s.index.toNat ∨ s.index.toNat + x.val < a → t.byteAt a = s.byteAt a

/-- FX65 LD Vx, [I]: with I to I + x in memory, V0 to Vx are loaded from there, the font included; the other registers and memory are unchanged; I becomes I + x + 1 unless LOAD_STORE_QUIRK. The bound is the spec's choice D1 (log entry 8). -/
def Obligations.BlockLoadReadsV0ToVx : Prop :=
  RowDecodes 0xF0FF 0xF065 (fun w => .ldVxMem (xField w)) ∧
  ∀ (x : Reg) (s : State), s.index.toNat + x.val < 0x1000 →
    ∃ t, exec (.ldVxMem x) s = .next t ∧
      t = { s with
        v := t.v, pc := s.pc + 2, st := ticked s.st
        index := if s.cfg.loadStoreQuirk = true then s.index else BitVec.ofNat 16 (s.index.toNat + x.val + 1) } ∧
      ∀ r : Reg, t.reg r = if r ≤ x then s.byteAt (s.index.toNat + r.val) else s.reg r

/-- FX33, FX55, FX65 and DRW fault before they write: a store whose I is in the font raises FONT_WRITE at I, any other access past memory raises MEM_BOUNDS at its first address of 0x1000 or more; a DRW of no rows does not fault, wherever I is. The spec's choices D1, D2, D19, D27 (log entries 7 to 9, 25). -/
def Obligations.BlockAccessFaults : Prop :=
  ∀ (x y : Reg) (n : Nibble) (s : State),
    (s.index.toNat < 0x050 → Raises (.ldBcd x) s .fontWrite (some s.index.toNat) ∧ Raises (.ldMemVx x) s .fontWrite (some s.index.toNat)) ∧
    (0x1000 ≤ s.index.toNat + 2 → Raises (.ldBcd x) s .memBounds (some (max s.index.toNat 0x1000))) ∧
    (0x1000 ≤ s.index.toNat + x.val → Raises (.ldMemVx x) s .memBounds (some (max s.index.toNat 0x1000))) ∧
    (0x1000 ≤ s.index.toNat + x.val → Raises (.ldVxMem x) s .memBounds (some (max s.index.toNat 0x1000))) ∧
    (n ≠ 0 → 0x1000 < s.index.toNat + n.toNat → Raises (.drw x y n) s .memBounds (some (max s.index.toNat 0x1000))) ∧
    (n = 0 → ∃ t, exec (.drw x y n) s = .next t ∧ t.run = s.run)

/-- FX55 then FX65 with the same x, the same base and no other write restores V0 to Vx, under both values of the quirk. -/
def Obligations.BlockStoreThenLoadRestores : Prop :=
  ∀ (x : Reg) (s : State), s.mem.wf = true → 0x050 ≤ s.index.toNat → s.index.toNat + x.val < 0x1000 →
    ∃ t, exec (.ldMemVx x) s = .next t ∧
      ∀ u : State, u.mem = t.mem → u.index = s.index →
        ∃ v, exec (.ldVxMem x) u = .next v ∧ (∀ r : Reg, r ≤ x → v.reg r = s.reg r) ∧ ∀ r : Reg, x < r → v.reg r = u.reg r

/-- Fetch sees a store at once: after FX55 the word fetched at two stored addresses is the two registers stored there, the lower address the high byte. The host's act before the step is the model's (log entry 4). -/
def Obligations.FetchSeesStoredBytes : Prop :=
  ∀ (x r r' : Reg) (s t u : State), s.mem.wf = true → exec (.ldMemVx x) s = .next t → t.run = .running →
    u.mem = t.mem → u.run = .running → u.dt = 0 → r'.val = r.val + 1 → r' ≤ x →
    u.pc.toNat = s.index.toNat + r.val → 0x200 ≤ u.pc.toNat →
    step u = exec (decodeWord (s.reg r ++ s.reg r')) u.takeHostInput

/-! ## Display (44_display.md) -/

/-- 00E0 CLS: every pixel unlit, dirty set; ST ticks and pc moves by 2; nothing else changes (R181). -/
def Obligations.ClearDisplay : Prop :=
  RowDecodes 0xFFFF 0x00E0 (fun _ => .cls) ∧
  ∀ s : State, ∃ t, exec .cls s = .next t ∧ (∀ r c, t.disp.pixel r c = false) ∧
    t = { s with disp := t.disp, dirty := true, pc := s.pc + 2, st := ticked s.st }

/-- DXYN DRW: with its sprite in memory it completes; a pixel is inverted exactly when a set sprite bit lies on it, wrapping at both edges; dirty is set, and only VF, pc and ST change beside. Reading the coordinates once and the bound are the spec's choices D7, D1 (log entries 14, 8). -/
def Obligations.DrawXorsTheSprite : Prop :=
  RowDecodes 0xF000 0xD000 (fun w => .drw (xField w) (yField w) (nField w)) ∧
  ∀ (x y : Reg) (n : Nibble) (s : State), n = 0 ∨ s.index.toNat + n.toNat ≤ 0x1000 →
    ∃ t, exec (.drw x y n) s = .next t ∧
      t = { s with v := t.v, disp := t.disp, dirty := true, pc := s.pc + 2, st := ticked s.st } ∧
      (∀ r, r ≠ VF → t.reg r = s.reg r) ∧
      ∀ r c, (t.disp.pixel r c ≠ s.disp.pixel r c ↔ spriteCovers s (s.reg x) (s.reg y) n.toNat r c)

/-- VF after DRW. LAST_PIXEL: 1 exactly when the last visited pixel was lit before, unchanged when n = 0. ANY_PIXEL: 1 when the draw turned a lit pixel off, else 0, for n = 0 too. The two modes, the default and the reading of "collided" are the spec's choice D8 (log entries 2, 15); that the last visited pixel is that of Vx and Vy as read before the loop, for x or y = F too, is its choice D7 (log entry 14). -/
def Obligations.CollisionFlagByMode : Prop :=
  ∀ (x y : Reg) (n : Nibble) (s : State), n = 0 ∨ s.index.toNat + n.toNat ≤ 0x1000 →
    ∃ t, exec (.drw x y n) s = .next t ∧
      (s.cfg.collisionMode = .lastPixel →
        (n = 0 → t.reg VF = s.reg VF) ∧
        (n ≠ 0 → t.reg VF =
          if s.disp.pixel (Fin.ofNat 32 ((s.reg y).toNat + n.toNat - 1)) (Fin.ofNat 64 ((s.reg x).toNat + 7)) = true then 1 else 0)) ∧
      (s.cfg.collisionMode = .anyPixel →
        t.reg VF = if ∃ r c, s.disp.pixel r c = true ∧ t.disp.pixel r c = false then 1 else 0)

/-- Every CLS and every DRW that completes sets dirty; no other instruction changes dirty or the display (R185). -/
def Obligations.DirtySetByClearAndDrawOnly : Prop :=
  ∀ (i : Instr) (s t : State), s.run = .running → exec i s = .next t →
    (i.mnemonic = "CLS" ∨ i.mnemonic = "DRW" → t.run = .running → t.dirty = true) ∧
    (i.mnemonic ≠ "CLS" → i.mnemonic ≠ "DRW" → t.dirty = s.dirty ∧ t.disp = s.disp)

/-! ## Keys and timers (45_timers_input.md) -/

/-- EX9E SKP and EXA1 SKNP: skip when a key is pressed whose code is the full byte of Vx, or not so; NONE equals no value. The comparison is the spec's choice D14 (log entry 19). -/
def Obligations.SkipsOnKey : Prop :=
  RowDecodes 0xF0FF 0xE09E (fun w => .skp (xField w)) ∧ RowDecodes 0xF0FF 0xE0A1 (fun w => .sknp (xField w)) ∧
  ∀ (x : Reg) (s : State),
    CompletesAsSkip (.skp x) s (decide (∃ k : Key, s.key = some k ∧ k.val = (s.reg x).toNat)) ∧
    CompletesAsSkip (.sknp x) s (decide (¬ ∃ k : Key, s.key = some k ∧ k.val = (s.reg x).toNat))

/-- FX07 LD: Vx is DT. FX15 LD: DT is Vx, not decremented in its own cycle. FX18 LD: at the end of its cycle ST is Vx less one, or 0 for Vx = 0 (R206; the FX07 and FX15 clauses say only what their own cycle does). -/
def Obligations.TimerInstructions : Prop :=
  RowDecodes 0xF0FF 0xF007 (fun w => .ldVxDt (xField w)) ∧ RowDecodes 0xF0FF 0xF015 (fun w => .ldDtVx (xField w)) ∧
  RowDecodes 0xF0FF 0xF018 (fun w => .ldStVx (xField w)) ∧
  ∀ (x : Reg) (s : State),
    CompletesWithRegs (.ldVxDt x) s (fun r => if r = x then s.dt else s.reg r) ∧
    exec (.ldDtVx x) s = .next { s with dt := s.reg x, pc := s.pc + 2, st := ticked s.st } ∧
    exec (.ldStVx x) s = .next { s with st := BitVec.ofNat 8 ((s.reg x).toNat - 1), pc := s.pc + 2 }

/-- A step that executes FX07 always writes 0, since no instruction executes while DT is not 0. -/
def Obligations.DelayTimerReadsAsZero : Prop :=
  ∀ (s t : State) (x : Reg), s.run = .running → 0x200 ≤ s.pc.toNat → s.pc.toNat + 1 < 0x1000 →
    decode [s.byteAt s.pc.toNat, s.byteAt (s.pc.toNat + 1)] = .ok (.ldVxDt x, []) →
    step s = .next t → (t.pc = s.pc + 2 ∧ t.reg x = 0) ∨ (t.pc = s.pc ∧ s.dt ≠ 0 ∧ t.v = s.v)

/-- FX0A LD, the issue step: the CORE goes to WAIT_KEY(x) and nothing else changes, no tick and no + 2; KEY is not consulted. The spec's choices D15, D16 (log entries 19, 20). -/
def Obligations.WaitForKeyIssue : Prop :=
  RowDecodes 0xF0FF 0xF00A (fun w => .ldVxK (xField w)) ∧
  ∀ (x : Reg) (s : State), exec (.ldVxK x) s = .next { s with run := .waitKey x }

/-- A step in WAIT_KEY(x): a key the host delivers goes to Vx, the CORE runs again, ST ticks once and pc moves by 2; with none the CORE goes on waiting, no timer counting. The spec's choice D16; a wait as an unchanged next state and the host's list are the model's (log entries 5, 20, 4). -/
def Obligations.KeyDeliveryCompletesTheWait : Prop :=
  ∀ (s : State) (x : Reg), s.run = .waitKey x →
    (∀ h rest k, s.inputs = h :: rest → h.deliverKey = some k →
      ∃ t, step s = .next t ∧ (∀ r, t.reg r = if r = x then BitVec.ofNat 8 k.val else s.reg r) ∧
        t = { s.takeHostInput with v := t.v, run := .running, st := ticked s.st, pc := s.pc + 2 }) ∧
    ((∀ h ∈ s.inputs.head?, h.deliverKey = none) → step s = .next s.takeHostInput)

/-! ## Fatal conditions (60_exceptions.md) -/

/-- Fatal conditions are precise: an instruction that raises one, and a step that ends in one, leave every part of the state but the run state as it was. The spec's choice D19 (log entries 7, 25); the host's act before the step is the model's (log entry 4). -/
def Obligations.FatalConditionsArePrecise : Prop :=
  (∀ (i : Instr) (s t : State) (r : FaultRecord), s.run = .running → exec i s = .next t → t.run = .halted r →
    t = { s with run := .halted r } ∧ r.pc = some s.pc ∧ r.word = some (encode i)) ∧
  (∀ (s t : State) (r : FaultRecord), step s = .next t → t.run = .halted r →
    t = { s.takeHostInput with run := .halted r } ∧ r.pc = some s.pc ∧ s.run = .running ∧ s.dt = 0)

/-- Which instruction raises which cause, and when (the table of R222): CALL on a full stack, RET on an empty one, FX33 and FX55 in the font or out of memory, FX65 and DRW out of memory, nothing else. The record names an address for a memory cause only: I itself in the font, and the first address from 0x1000 on of the bytes accessed. The spec's choices D1, D2, D4, D19, D26, D27 (log entries 7 to 9, 11, 25). -/
def Obligations.CausesByInstruction : Prop :=
  ∀ (i : Instr) (s t : State) (r : FaultRecord), s.run = .running → exec i s = .next t → t.run = .halted r →
    (r.cause = .stackOverflow ∧ r.addr = none ∧ i.mnemonic = "CALL" ∧ 16 ≤ s.stack.length) ∨
    (r.cause = .stackUnderflow ∧ r.addr = none ∧ i.mnemonic = "RET" ∧ s.stack = []) ∨
    (r.cause = .fontWrite ∧ (i.mnemonic = "LD_BCD" ∨ i.mnemonic = "LD_MEM_VX") ∧ s.index.toNat < 0x050 ∧ r.addr = some s.index.toNat) ∨
    (r.cause = .memBounds ∧ (i.mnemonic = "LD_BCD" ∨ i.mnemonic = "LD_MEM_VX" ∨ i.mnemonic = "LD_VX_MEM" ∨ i.mnemonic = "DRW") ∧
      0x1000 < s.index.toNat + accessedBytes i ∧ r.addr = some (max s.index.toNat 0x1000))

/-! ## What each instruction leaves alone -/

/-- The frame of V: an instruction changes no register but its destination and, where it writes a flag, VF (R20, R21, R153). -/
def Obligations.RegisterFrame : Prop :=
  ∀ (i : Instr) (s t : State), exec i s = .next t → ∀ r, writesReg i r = false → t.reg r = s.reg r

/-- The frame of memory: FX33 and FX55 change no byte outside the bytes they store, from I on; every other instruction changes no byte at all. -/
def Obligations.MemoryFrame : Prop :=
  ∀ (i : Instr) (s t : State), s.mem.wf = true → exec i s = .next t →
    ∀ a, a < s.index.toNat ∨ s.index.toNat + storedBytes i ≤ a → t.byteAt a = s.byteAt a

/-- The frame of the rest: I is written by LD I, ADD I, LD F, FX55, FX65; the stack by CALL and RET; the draw counter by RND; the unmatched counter by unmatched words; KEY, the configuration and the host's list by no instruction. Of these the draw counter and the host's list are the model's own (log entries 18, 4), the unmatched counter is the spec's optional one, D22 (log entry 24), and that no instruction writes KEY is its choice D15 (log entry 19). -/
def Obligations.SpecialStateFrame : Prop :=
  ∀ (i : Instr) (s t : State), exec i s = .next t →
    t.key = s.key ∧ t.cfg = s.cfg ∧ t.inputs = s.inputs ∧
    (i.mnemonic ∉ ["LD_I", "ADD_I", "LD_F", "LD_MEM_VX", "LD_VX_MEM"] → t.index = s.index) ∧
    (i.mnemonic ∉ ["CALL", "RET"] → t.stack = s.stack) ∧
    (i.mnemonic ≠ "RND" → t.draws = s.draws) ∧
    (i.mnemonic ≠ "NOP_UNMATCHED" → t.unmatchedCount = s.unmatchedCount)

/-- No instruction reads VF as a flag: unless it names VF, its whole result but VF itself is the same whatever VF holds. -/
def Obligations.VFIsNoHiddenOperand : Prop :=
  ∀ (i : Instr) (s t : State) (b : Byte), namesReg i VF = false → exec i s = .next t →
    ∃ t', exec i (s.setReg VF b) = .next t' ∧ t'.setReg VF 0 = t.setReg VF 0

/-- The configuration is fixed: no step writes it, and each parameter acts only through the instructions whose rules name it, IPS and FONT through none (R36). -/
def Obligations.ConfigurationActsOnlyWhereNamed : Prop :=
  (∀ s t : State, step s = .next t → t.cfg = s.cfg) ∧
  ∀ (i : Instr) (s t : State) (c : Config),
    (i.mnemonic = "SHR" ∨ i.mnemonic = "SHL" → c.shiftQuirk = s.cfg.shiftQuirk) →
    (i.mnemonic = "LD_MEM_VX" ∨ i.mnemonic = "LD_VX_MEM" → c.loadStoreQuirk = s.cfg.loadStoreQuirk) →
    (i.mnemonic = "DRW" → c.collisionMode = s.cfg.collisionMode) →
    exec i s = .next t → exec i { s with cfg := c } = .next { t with cfg := c }

/-! ## Invariants and start-up (70_reset_and_hazards.md) -/

/-- Every step keeps the invariant: at most 16 return addresses, memory canonical and inside the address space, FONT in place. The canonical form is the model's (log entry 26); that a font store faults is the spec's choice D2 (log entry 9). -/
def Obligations.StepKeepsTheInvariant : Prop :=
  ∀ s t : State, s.Inv → step s = .next t → t.Inv

/-- The invariant holds at reset; the default FONT is the spec's choice D10 (log entry 2). -/
def Obligations.InvariantAtReset : Prop := State.reset.Inv

/-- The invariant holds in every start state: for any configuration, host and ROM, a refused one included. Refusing an oversized ROM is the spec's choice D12 (log entry 16); that the stack of a refused start is empty is the model's (log entry 36). -/
def Obligations.InvariantAtEveryStart : Prop :=
  ∀ (cfg : Config) (inputs : List HostInput) (rom : Option (List Byte)), (State.start cfg inputs rom).Inv

/-- The state at reset: pc 0x200, an empty stack and zeroed memory are the source's; the font bytes are presumed, as the spec does in D10 (log entry 2); the rest is the spec's choice D9 (log entry 3). -/
def Obligations.ResetState : Prop :=
  State.reset.pc = 0x200 ∧ State.reset.stack = [] ∧ (∀ r, State.reset.reg r = 0) ∧ State.reset.index = 0 ∧
  State.reset.dt = 0 ∧ State.reset.st = 0 ∧ State.reset.key = none ∧ (∀ r c, State.reset.disp.pixel r c = false) ∧
  State.reset.dirty = false ∧ State.reset.run = .running ∧
  ∀ a, State.reset.byteAt a = if h : a < 80 then Config.defaultFont[a] else 0

/-- Memory at start: FONT below 0x050, ROM byte k at 0x200 + k, zero everywhere else, so after an odd last byte too; the CORE is RUNNING at 0x200. The font and the padding are the spec's choices D10, D11 (log entries 2, 16), and that the CORE is RUNNING at start is its choice D9 (log entry 3); zeroed memory and pc 0x200 are the source's. -/
def Obligations.StartLoadsFontAndRom : Prop :=
  ∀ (cfg : Config) (inputs : List HostInput) (rom : List Byte), rom.length ≤ 3584 →
    (State.start cfg inputs (some rom)).run = .running ∧ (State.start cfg inputs (some rom)).pc = 0x200 ∧
    (State.start cfg inputs (some rom)).cfg = cfg ∧
    ∀ a, (State.start cfg inputs (some rom)).byteAt a =
      if h : a < 80 then cfg.font[a] else if 0x200 ≤ a ∧ a < 0x200 + rom.length then rom.getD (a - 0x200) 0 else 0

/-- A ROM the host cannot supply: ROM_UNREADABLE, code 16, and the CORE never takes a step. The code is the spec's choice D26; the record's empty fields are the model's (log entries 16, 25). -/
def Obligations.UnreadableRomNeverRuns : Prop :=
  ∀ (cfg : Config) (inputs : List HostInput), ∃ r : FaultRecord,
    (State.start cfg inputs none).run = .halted r ∧ r.cause = .romUnreadable ∧ r.cause.code = 16 ∧
    step (State.start cfg inputs none) = .fault (.halted r)

/-- A ROM of more than 3584 bytes is refused with ROM_TOO_LARGE, code 17, before a byte of it is copied, and the CORE never takes a step. The spec's choices D12, D26 (log entries 16, 25). -/
def Obligations.OversizedRomIsRefused : Prop :=
  ∀ (cfg : Config) (inputs : List HostInput) (rom : List Byte), 3584 < rom.length → ∃ r : FaultRecord,
    (State.start cfg inputs (some rom)).run = .halted r ∧ r.cause = .romTooLarge ∧ r.cause.code = 17 ∧
    step (State.start cfg inputs (some rom)) = .fault (.halted r) ∧
    ∀ a, 0x050 ≤ a → (State.start cfg inputs (some rom)).byteAt a = 0
end

