-- ==== Sys2Proof/Laws/State.lean ====
section
/-! SUPPORT. One lemma per field per update of State, and what the operations that recurse leave alone. -/

namespace Sys2Proof.Machine

variable (s : State)

/-! The write of a general register changes V alone (R20). -/

@[simp] theorem State.setReg_v (x : Reg) (b : Byte) : (s.setReg x b).v = s.v.set x.val b := rfl
@[simp] theorem State.setReg_index (x : Reg) (b : Byte) : (s.setReg x b).index = s.index := rfl
@[simp] theorem State.setReg_pc (x : Reg) (b : Byte) : (s.setReg x b).pc = s.pc := rfl
@[simp] theorem State.setReg_stack (x : Reg) (b : Byte) : (s.setReg x b).stack = s.stack := rfl
@[simp] theorem State.setReg_dt (x : Reg) (b : Byte) : (s.setReg x b).dt = s.dt := rfl
@[simp] theorem State.setReg_st (x : Reg) (b : Byte) : (s.setReg x b).st = s.st := rfl
@[simp] theorem State.setReg_key (x : Reg) (b : Byte) : (s.setReg x b).key = s.key := rfl
@[simp] theorem State.setReg_disp (x : Reg) (b : Byte) : (s.setReg x b).disp = s.disp := rfl
@[simp] theorem State.setReg_dirty (x : Reg) (b : Byte) : (s.setReg x b).dirty = s.dirty := rfl
@[simp] theorem State.setReg_mem (x : Reg) (b : Byte) : (s.setReg x b).mem = s.mem := rfl
@[simp] theorem State.setReg_run (x : Reg) (b : Byte) : (s.setReg x b).run = s.run := rfl
@[simp] theorem State.setReg_cfg (x : Reg) (b : Byte) : (s.setReg x b).cfg = s.cfg := rfl
@[simp] theorem State.setReg_unmatchedCount (x : Reg) (b : Byte) : (s.setReg x b).unmatchedCount = s.unmatchedCount := rfl
@[simp] theorem State.setReg_draws (x : Reg) (b : Byte) : (s.setReg x b).draws = s.draws := rfl
@[simp] theorem State.setReg_inputs (x : Reg) (b : Byte) : (s.setReg x b).inputs = s.inputs := rfl

/-! The write of I changes I alone (R24). -/

@[simp] theorem State.setIndex_v (w : Word) : (s.setIndex w).v = s.v := rfl
@[simp] theorem State.setIndex_index (w : Word) : (s.setIndex w).index = w := rfl
@[simp] theorem State.setIndex_pc (w : Word) : (s.setIndex w).pc = s.pc := rfl
@[simp] theorem State.setIndex_stack (w : Word) : (s.setIndex w).stack = s.stack := rfl
@[simp] theorem State.setIndex_dt (w : Word) : (s.setIndex w).dt = s.dt := rfl
@[simp] theorem State.setIndex_st (w : Word) : (s.setIndex w).st = s.st := rfl
@[simp] theorem State.setIndex_key (w : Word) : (s.setIndex w).key = s.key := rfl
@[simp] theorem State.setIndex_disp (w : Word) : (s.setIndex w).disp = s.disp := rfl
@[simp] theorem State.setIndex_dirty (w : Word) : (s.setIndex w).dirty = s.dirty := rfl
@[simp] theorem State.setIndex_mem (w : Word) : (s.setIndex w).mem = s.mem := rfl
@[simp] theorem State.setIndex_run (w : Word) : (s.setIndex w).run = s.run := rfl
@[simp] theorem State.setIndex_cfg (w : Word) : (s.setIndex w).cfg = s.cfg := rfl
@[simp] theorem State.setIndex_unmatchedCount (w : Word) : (s.setIndex w).unmatchedCount = s.unmatchedCount := rfl
@[simp] theorem State.setIndex_draws (w : Word) : (s.setIndex w).draws = s.draws := rfl
@[simp] theorem State.setIndex_inputs (w : Word) : (s.setIndex w).inputs = s.inputs := rfl

/-! The write of pc changes pc alone (R25). -/

@[simp] theorem State.setPc_v (w : Word) : (s.setPc w).v = s.v := rfl
@[simp] theorem State.setPc_index (w : Word) : (s.setPc w).index = s.index := rfl
@[simp] theorem State.setPc_pc (w : Word) : (s.setPc w).pc = w := rfl
@[simp] theorem State.setPc_stack (w : Word) : (s.setPc w).stack = s.stack := rfl
@[simp] theorem State.setPc_dt (w : Word) : (s.setPc w).dt = s.dt := rfl
@[simp] theorem State.setPc_st (w : Word) : (s.setPc w).st = s.st := rfl
@[simp] theorem State.setPc_key (w : Word) : (s.setPc w).key = s.key := rfl
@[simp] theorem State.setPc_disp (w : Word) : (s.setPc w).disp = s.disp := rfl
@[simp] theorem State.setPc_dirty (w : Word) : (s.setPc w).dirty = s.dirty := rfl
@[simp] theorem State.setPc_mem (w : Word) : (s.setPc w).mem = s.mem := rfl
@[simp] theorem State.setPc_run (w : Word) : (s.setPc w).run = s.run := rfl
@[simp] theorem State.setPc_cfg (w : Word) : (s.setPc w).cfg = s.cfg := rfl
@[simp] theorem State.setPc_unmatchedCount (w : Word) : (s.setPc w).unmatchedCount = s.unmatchedCount := rfl
@[simp] theorem State.setPc_draws (w : Word) : (s.setPc w).draws = s.draws := rfl
@[simp] theorem State.setPc_inputs (w : Word) : (s.setPc w).inputs = s.inputs := rfl

/-! The write of a byte changes memory alone (R55). -/

@[simp] theorem State.poke_v (a : Nat) (b : Byte) : (s.poke a b).v = s.v := rfl
@[simp] theorem State.poke_index (a : Nat) (b : Byte) : (s.poke a b).index = s.index := rfl
@[simp] theorem State.poke_pc (a : Nat) (b : Byte) : (s.poke a b).pc = s.pc := rfl
@[simp] theorem State.poke_stack (a : Nat) (b : Byte) : (s.poke a b).stack = s.stack := rfl
@[simp] theorem State.poke_dt (a : Nat) (b : Byte) : (s.poke a b).dt = s.dt := rfl
@[simp] theorem State.poke_st (a : Nat) (b : Byte) : (s.poke a b).st = s.st := rfl
@[simp] theorem State.poke_key (a : Nat) (b : Byte) : (s.poke a b).key = s.key := rfl
@[simp] theorem State.poke_disp (a : Nat) (b : Byte) : (s.poke a b).disp = s.disp := rfl
@[simp] theorem State.poke_dirty (a : Nat) (b : Byte) : (s.poke a b).dirty = s.dirty := rfl
@[simp] theorem State.poke_mem (a : Nat) (b : Byte) : (s.poke a b).mem = s.mem.write a b := rfl
@[simp] theorem State.poke_run (a : Nat) (b : Byte) : (s.poke a b).run = s.run := rfl
@[simp] theorem State.poke_cfg (a : Nat) (b : Byte) : (s.poke a b).cfg = s.cfg := rfl
@[simp] theorem State.poke_unmatchedCount (a : Nat) (b : Byte) : (s.poke a b).unmatchedCount = s.unmatchedCount := rfl
@[simp] theorem State.poke_draws (a : Nat) (b : Byte) : (s.poke a b).draws = s.draws := rfl
@[simp] theorem State.poke_inputs (a : Nat) (b : Byte) : (s.poke a b).inputs = s.inputs := rfl

/-! A fatal condition changes the run state alone (R107, R221). -/

@[simp] theorem State.raise_v (w : Option Word) (f : Fatal) : (s.raise w f).v = s.v := rfl
@[simp] theorem State.raise_index (w : Option Word) (f : Fatal) : (s.raise w f).index = s.index := rfl
@[simp] theorem State.raise_pc (w : Option Word) (f : Fatal) : (s.raise w f).pc = s.pc := rfl
@[simp] theorem State.raise_stack (w : Option Word) (f : Fatal) : (s.raise w f).stack = s.stack := rfl
@[simp] theorem State.raise_dt (w : Option Word) (f : Fatal) : (s.raise w f).dt = s.dt := rfl
@[simp] theorem State.raise_st (w : Option Word) (f : Fatal) : (s.raise w f).st = s.st := rfl
@[simp] theorem State.raise_key (w : Option Word) (f : Fatal) : (s.raise w f).key = s.key := rfl
@[simp] theorem State.raise_disp (w : Option Word) (f : Fatal) : (s.raise w f).disp = s.disp := rfl
@[simp] theorem State.raise_dirty (w : Option Word) (f : Fatal) : (s.raise w f).dirty = s.dirty := rfl
@[simp] theorem State.raise_mem (w : Option Word) (f : Fatal) : (s.raise w f).mem = s.mem := rfl
@[simp] theorem State.raise_run (w : Option Word) (f : Fatal) : (s.raise w f).run = .halted { cause := f.cause, pc := some s.pc, word := w, addr := f.addr } := rfl
@[simp] theorem State.raise_cfg (w : Option Word) (f : Fatal) : (s.raise w f).cfg = s.cfg := rfl
@[simp] theorem State.raise_unmatchedCount (w : Option Word) (f : Fatal) : (s.raise w f).unmatchedCount = s.unmatchedCount := rfl
@[simp] theorem State.raise_draws (w : Option Word) (f : Fatal) : (s.raise w f).draws = s.draws := rfl
@[simp] theorem State.raise_inputs (w : Option Word) (f : Fatal) : (s.raise w f).inputs = s.inputs := rfl

/-! The tail changes ST and pc alone (R105, R106). -/

@[simp] theorem State.tail_v (final : Bool) : (s.tail final).v = s.v := rfl
@[simp] theorem State.tail_index (final : Bool) : (s.tail final).index = s.index := rfl
@[simp] theorem State.tail_pc (final : Bool) : (s.tail final).pc = if final then s.pc else s.pc + 2 := rfl
@[simp] theorem State.tail_stack (final : Bool) : (s.tail final).stack = s.stack := rfl
@[simp] theorem State.tail_dt (final : Bool) : (s.tail final).dt = s.dt := rfl
@[simp] theorem State.tail_st (final : Bool) : (s.tail final).st = soundTick s.st := rfl
@[simp] theorem State.tail_key (final : Bool) : (s.tail final).key = s.key := rfl
@[simp] theorem State.tail_disp (final : Bool) : (s.tail final).disp = s.disp := rfl
@[simp] theorem State.tail_dirty (final : Bool) : (s.tail final).dirty = s.dirty := rfl
@[simp] theorem State.tail_mem (final : Bool) : (s.tail final).mem = s.mem := rfl
@[simp] theorem State.tail_run (final : Bool) : (s.tail final).run = s.run := rfl
@[simp] theorem State.tail_cfg (final : Bool) : (s.tail final).cfg = s.cfg := rfl
@[simp] theorem State.tail_unmatchedCount (final : Bool) : (s.tail final).unmatchedCount = s.unmatchedCount := rfl
@[simp] theorem State.tail_draws (final : Bool) : (s.tail final).draws = s.draws := rfl
@[simp] theorem State.tail_inputs (final : Bool) : (s.tail final).inputs = s.inputs := rfl

/-! The skip changes pc alone (R120). -/

@[simp] theorem State.skipIf_v (c : Bool) : (s.skipIf c).v = s.v := rfl
@[simp] theorem State.skipIf_index (c : Bool) : (s.skipIf c).index = s.index := rfl
@[simp] theorem State.skipIf_pc (c : Bool) : (s.skipIf c).pc = if c then s.pc + 2 else s.pc := rfl
@[simp] theorem State.skipIf_stack (c : Bool) : (s.skipIf c).stack = s.stack := rfl
@[simp] theorem State.skipIf_dt (c : Bool) : (s.skipIf c).dt = s.dt := rfl
@[simp] theorem State.skipIf_st (c : Bool) : (s.skipIf c).st = s.st := rfl
@[simp] theorem State.skipIf_key (c : Bool) : (s.skipIf c).key = s.key := rfl
@[simp] theorem State.skipIf_disp (c : Bool) : (s.skipIf c).disp = s.disp := rfl
@[simp] theorem State.skipIf_dirty (c : Bool) : (s.skipIf c).dirty = s.dirty := rfl
@[simp] theorem State.skipIf_mem (c : Bool) : (s.skipIf c).mem = s.mem := rfl
@[simp] theorem State.skipIf_run (c : Bool) : (s.skipIf c).run = s.run := rfl
@[simp] theorem State.skipIf_cfg (c : Bool) : (s.skipIf c).cfg = s.cfg := rfl
@[simp] theorem State.skipIf_unmatchedCount (c : Bool) : (s.skipIf c).unmatchedCount = s.unmatchedCount := rfl
@[simp] theorem State.skipIf_draws (c : Bool) : (s.skipIf c).draws = s.draws := rfl
@[simp] theorem State.skipIf_inputs (c : Bool) : (s.skipIf c).inputs = s.inputs := rfl

/-! A result with its flag changes V alone (R23). -/

@[simp] theorem State.setResultFlag_v (x : Reg) (b : Byte) (f : Bool) : (s.setResultFlag x b f).v = (s.v.set x.val b).set VF.val (flagByte f) := rfl
@[simp] theorem State.setResultFlag_index (x : Reg) (b : Byte) (f : Bool) : (s.setResultFlag x b f).index = s.index := rfl
@[simp] theorem State.setResultFlag_pc (x : Reg) (b : Byte) (f : Bool) : (s.setResultFlag x b f).pc = s.pc := rfl
@[simp] theorem State.setResultFlag_stack (x : Reg) (b : Byte) (f : Bool) : (s.setResultFlag x b f).stack = s.stack := rfl
@[simp] theorem State.setResultFlag_dt (x : Reg) (b : Byte) (f : Bool) : (s.setResultFlag x b f).dt = s.dt := rfl
@[simp] theorem State.setResultFlag_st (x : Reg) (b : Byte) (f : Bool) : (s.setResultFlag x b f).st = s.st := rfl
@[simp] theorem State.setResultFlag_key (x : Reg) (b : Byte) (f : Bool) : (s.setResultFlag x b f).key = s.key := rfl
@[simp] theorem State.setResultFlag_disp (x : Reg) (b : Byte) (f : Bool) : (s.setResultFlag x b f).disp = s.disp := rfl
@[simp] theorem State.setResultFlag_dirty (x : Reg) (b : Byte) (f : Bool) : (s.setResultFlag x b f).dirty = s.dirty := rfl
@[simp] theorem State.setResultFlag_mem (x : Reg) (b : Byte) (f : Bool) : (s.setResultFlag x b f).mem = s.mem := rfl
@[simp] theorem State.setResultFlag_run (x : Reg) (b : Byte) (f : Bool) : (s.setResultFlag x b f).run = s.run := rfl
@[simp] theorem State.setResultFlag_cfg (x : Reg) (b : Byte) (f : Bool) : (s.setResultFlag x b f).cfg = s.cfg := rfl
@[simp] theorem State.setResultFlag_unmatchedCount (x : Reg) (b : Byte) (f : Bool) : (s.setResultFlag x b f).unmatchedCount = s.unmatchedCount := rfl
@[simp] theorem State.setResultFlag_draws (x : Reg) (b : Byte) (f : Bool) : (s.setResultFlag x b f).draws = s.draws := rfl
@[simp] theorem State.setResultFlag_inputs (x : Reg) (b : Byte) (f : Bool) : (s.setResultFlag x b f).inputs = s.inputs := rfl

/-! The host changes KEY and dirty alone, and its own list (R241). -/

@[simp] theorem State.takeHostInput_v : (s.takeHostInput).v = s.v := rfl
@[simp] theorem State.takeHostInput_index : (s.takeHostInput).index = s.index := rfl
@[simp] theorem State.takeHostInput_pc : (s.takeHostInput).pc = s.pc := rfl
@[simp] theorem State.takeHostInput_stack : (s.takeHostInput).stack = s.stack := rfl
@[simp] theorem State.takeHostInput_dt : (s.takeHostInput).dt = s.dt := rfl
@[simp] theorem State.takeHostInput_st : (s.takeHostInput).st = s.st := rfl
@[simp] theorem State.takeHostInput_key : (s.takeHostInput).key = s.hostInput.writeKey.getD s.key := rfl
@[simp] theorem State.takeHostInput_disp : (s.takeHostInput).disp = s.disp := rfl
@[simp] theorem State.takeHostInput_dirty : (s.takeHostInput).dirty = (s.dirty && !s.hostInput.clearDirty) := rfl
@[simp] theorem State.takeHostInput_mem : (s.takeHostInput).mem = s.mem := rfl
@[simp] theorem State.takeHostInput_run : (s.takeHostInput).run = s.run := rfl
@[simp] theorem State.takeHostInput_cfg : (s.takeHostInput).cfg = s.cfg := rfl
@[simp] theorem State.takeHostInput_unmatchedCount : (s.takeHostInput).unmatchedCount = s.unmatchedCount := rfl
@[simp] theorem State.takeHostInput_draws : (s.takeHostInput).draws = s.draws := rfl
@[simp] theorem State.takeHostInput_inputs : (s.takeHostInput).inputs = s.inputs.tail := rfl

/-! The completion of FX0A (R109, R204). -/

@[simp] theorem State.supplyKey_v (x : Reg) (k : Key) : (s.supplyKey x k).v = s.v.set x.val (keyByte k) := rfl
@[simp] theorem State.supplyKey_index (x : Reg) (k : Key) : (s.supplyKey x k).index = s.index := rfl
@[simp] theorem State.supplyKey_pc (x : Reg) (k : Key) : (s.supplyKey x k).pc = s.pc + 2 := rfl
@[simp] theorem State.supplyKey_stack (x : Reg) (k : Key) : (s.supplyKey x k).stack = s.stack := rfl
@[simp] theorem State.supplyKey_dt (x : Reg) (k : Key) : (s.supplyKey x k).dt = s.dt := rfl
@[simp] theorem State.supplyKey_st (x : Reg) (k : Key) : (s.supplyKey x k).st = soundTick s.st := rfl
@[simp] theorem State.supplyKey_key (x : Reg) (k : Key) : (s.supplyKey x k).key = s.key := rfl
@[simp] theorem State.supplyKey_disp (x : Reg) (k : Key) : (s.supplyKey x k).disp = s.disp := rfl
@[simp] theorem State.supplyKey_dirty (x : Reg) (k : Key) : (s.supplyKey x k).dirty = s.dirty := rfl
@[simp] theorem State.supplyKey_mem (x : Reg) (k : Key) : (s.supplyKey x k).mem = s.mem := rfl
@[simp] theorem State.supplyKey_run (x : Reg) (k : Key) : (s.supplyKey x k).run = .running := rfl
@[simp] theorem State.supplyKey_cfg (x : Reg) (k : Key) : (s.supplyKey x k).cfg = s.cfg := rfl
@[simp] theorem State.supplyKey_unmatchedCount (x : Reg) (k : Key) : (s.supplyKey x k).unmatchedCount = s.unmatchedCount := rfl
@[simp] theorem State.supplyKey_draws (x : Reg) (k : Key) : (s.supplyKey x k).draws = s.draws := rfl
@[simp] theorem State.supplyKey_inputs (x : Reg) (k : Key) : (s.supplyKey x k).inputs = s.inputs := rfl

/-! Placing an instruction changes memory alone. -/

@[simp] theorem State.placeAtPc_v (bs : List Byte) : (s.placeAtPc bs).v = s.v := rfl
@[simp] theorem State.placeAtPc_index (bs : List Byte) : (s.placeAtPc bs).index = s.index := rfl
@[simp] theorem State.placeAtPc_pc (bs : List Byte) : (s.placeAtPc bs).pc = s.pc := rfl
@[simp] theorem State.placeAtPc_stack (bs : List Byte) : (s.placeAtPc bs).stack = s.stack := rfl
@[simp] theorem State.placeAtPc_dt (bs : List Byte) : (s.placeAtPc bs).dt = s.dt := rfl
@[simp] theorem State.placeAtPc_st (bs : List Byte) : (s.placeAtPc bs).st = s.st := rfl
@[simp] theorem State.placeAtPc_key (bs : List Byte) : (s.placeAtPc bs).key = s.key := rfl
@[simp] theorem State.placeAtPc_disp (bs : List Byte) : (s.placeAtPc bs).disp = s.disp := rfl
@[simp] theorem State.placeAtPc_dirty (bs : List Byte) : (s.placeAtPc bs).dirty = s.dirty := rfl
@[simp] theorem State.placeAtPc_run (bs : List Byte) : (s.placeAtPc bs).run = s.run := rfl
@[simp] theorem State.placeAtPc_cfg (bs : List Byte) : (s.placeAtPc bs).cfg = s.cfg := rfl
@[simp] theorem State.placeAtPc_unmatchedCount (bs : List Byte) : (s.placeAtPc bs).unmatchedCount = s.unmatchedCount := rfl
@[simp] theorem State.placeAtPc_draws (bs : List Byte) : (s.placeAtPc bs).draws = s.draws := rfl
@[simp] theorem State.placeAtPc_inputs (bs : List Byte) : (s.placeAtPc bs).inputs = s.inputs := rfl

/-! Placing an instruction for the next step changes memory, the run state and DT alone. -/

@[simp] theorem State.withFetchWord_v (n w : Nat) : (s.withFetchWord n w).v = s.v := rfl
@[simp] theorem State.withFetchWord_index (n w : Nat) : (s.withFetchWord n w).index = s.index := rfl
@[simp] theorem State.withFetchWord_pc (n w : Nat) : (s.withFetchWord n w).pc = s.pc := rfl
@[simp] theorem State.withFetchWord_stack (n w : Nat) : (s.withFetchWord n w).stack = s.stack := rfl
@[simp] theorem State.withFetchWord_dt (n w : Nat) : (s.withFetchWord n w).dt = 0 := rfl
@[simp] theorem State.withFetchWord_st (n w : Nat) : (s.withFetchWord n w).st = s.st := rfl
@[simp] theorem State.withFetchWord_key (n w : Nat) : (s.withFetchWord n w).key = s.key := rfl
@[simp] theorem State.withFetchWord_disp (n w : Nat) : (s.withFetchWord n w).disp = s.disp := rfl
@[simp] theorem State.withFetchWord_dirty (n w : Nat) : (s.withFetchWord n w).dirty = s.dirty := rfl
@[simp] theorem State.withFetchWord_mem (n w : Nat) : (s.withFetchWord n w).mem = (s.placeAtPc (tableBytes n w)).mem := rfl
@[simp] theorem State.withFetchWord_run (n w : Nat) : (s.withFetchWord n w).run = .running := rfl
@[simp] theorem State.withFetchWord_cfg (n w : Nat) : (s.withFetchWord n w).cfg = s.cfg := rfl
@[simp] theorem State.withFetchWord_unmatchedCount (n w : Nat) : (s.withFetchWord n w).unmatchedCount = s.unmatchedCount := rfl
@[simp] theorem State.withFetchWord_draws (n w : Nat) : (s.withFetchWord n w).draws = s.draws := rfl
@[simp] theorem State.withFetchWord_inputs (n w : Nat) : (s.withFetchWord n w).inputs = s.inputs := rfl

/-! A refused ROM changes the run state alone (R243). -/

@[simp] theorem State.refuseRom_v (c : Cause) : (s.refuseRom c).v = s.v := rfl
@[simp] theorem State.refuseRom_index (c : Cause) : (s.refuseRom c).index = s.index := rfl
@[simp] theorem State.refuseRom_pc (c : Cause) : (s.refuseRom c).pc = s.pc := rfl
@[simp] theorem State.refuseRom_stack (c : Cause) : (s.refuseRom c).stack = s.stack := rfl
@[simp] theorem State.refuseRom_dt (c : Cause) : (s.refuseRom c).dt = s.dt := rfl
@[simp] theorem State.refuseRom_st (c : Cause) : (s.refuseRom c).st = s.st := rfl
@[simp] theorem State.refuseRom_key (c : Cause) : (s.refuseRom c).key = s.key := rfl
@[simp] theorem State.refuseRom_disp (c : Cause) : (s.refuseRom c).disp = s.disp := rfl
@[simp] theorem State.refuseRom_dirty (c : Cause) : (s.refuseRom c).dirty = s.dirty := rfl
@[simp] theorem State.refuseRom_mem (c : Cause) : (s.refuseRom c).mem = s.mem := rfl
@[simp] theorem State.refuseRom_run (c : Cause) : (s.refuseRom c).run = .halted { cause := c, pc := none, word := none, addr := none } := rfl
@[simp] theorem State.refuseRom_cfg (c : Cause) : (s.refuseRom c).cfg = s.cfg := rfl
@[simp] theorem State.refuseRom_unmatchedCount (c : Cause) : (s.refuseRom c).unmatchedCount = s.unmatchedCount := rfl
@[simp] theorem State.refuseRom_draws (c : Cause) : (s.refuseRom c).draws = s.draws := rfl
@[simp] theorem State.refuseRom_inputs (c : Cause) : (s.refuseRom c).inputs = s.inputs := rfl

/-! VF after DRW: V alone (R183, R184). -/

@[simp] theorem State.setCollision_index (l : Option Bool) (c : Bool) : (s.setCollision l c).index = s.index := by
  unfold State.setCollision; split <;> (try split) <;> rfl
@[simp] theorem State.setCollision_pc (l : Option Bool) (c : Bool) : (s.setCollision l c).pc = s.pc := by
  unfold State.setCollision; split <;> (try split) <;> rfl
@[simp] theorem State.setCollision_stack (l : Option Bool) (c : Bool) : (s.setCollision l c).stack = s.stack := by
  unfold State.setCollision; split <;> (try split) <;> rfl
@[simp] theorem State.setCollision_dt (l : Option Bool) (c : Bool) : (s.setCollision l c).dt = s.dt := by
  unfold State.setCollision; split <;> (try split) <;> rfl
@[simp] theorem State.setCollision_st (l : Option Bool) (c : Bool) : (s.setCollision l c).st = s.st := by
  unfold State.setCollision; split <;> (try split) <;> rfl
@[simp] theorem State.setCollision_key (l : Option Bool) (c : Bool) : (s.setCollision l c).key = s.key := by
  unfold State.setCollision; split <;> (try split) <;> rfl
@[simp] theorem State.setCollision_disp (l : Option Bool) (c : Bool) : (s.setCollision l c).disp = s.disp := by
  unfold State.setCollision; split <;> (try split) <;> rfl
@[simp] theorem State.setCollision_dirty (l : Option Bool) (c : Bool) : (s.setCollision l c).dirty = s.dirty := by
  unfold State.setCollision; split <;> (try split) <;> rfl
@[simp] theorem State.setCollision_mem (l : Option Bool) (c : Bool) : (s.setCollision l c).mem = s.mem := by
  unfold State.setCollision; split <;> (try split) <;> rfl
@[simp] theorem State.setCollision_run (l : Option Bool) (c : Bool) : (s.setCollision l c).run = s.run := by
  unfold State.setCollision; split <;> (try split) <;> rfl
@[simp] theorem State.setCollision_cfg (l : Option Bool) (c : Bool) : (s.setCollision l c).cfg = s.cfg := by
  unfold State.setCollision; split <;> (try split) <;> rfl
@[simp] theorem State.setCollision_unmatchedCount (l : Option Bool) (c : Bool) : (s.setCollision l c).unmatchedCount = s.unmatchedCount := by
  unfold State.setCollision; split <;> (try split) <;> rfl
@[simp] theorem State.setCollision_draws (l : Option Bool) (c : Bool) : (s.setCollision l c).draws = s.draws := by
  unfold State.setCollision; split <;> (try split) <;> rfl
@[simp] theorem State.setCollision_inputs (l : Option Bool) (c : Bool) : (s.setCollision l c).inputs = s.inputs := by
  unfold State.setCollision; split <;> (try split) <;> rfl

/-! A list of stores: memory alone (R163, R164). -/

@[simp] theorem State.pokeList_v (a : Nat) (bs : List Byte) : (s.pokeList a bs).v = s.v := by
  induction bs generalizing a s with
  | nil => rfl
  | cons b bs ih => exact ih (s.poke a b) (a + 1)
@[simp] theorem State.pokeList_index (a : Nat) (bs : List Byte) : (s.pokeList a bs).index = s.index := by
  induction bs generalizing a s with
  | nil => rfl
  | cons b bs ih => exact ih (s.poke a b) (a + 1)
@[simp] theorem State.pokeList_pc (a : Nat) (bs : List Byte) : (s.pokeList a bs).pc = s.pc := by
  induction bs generalizing a s with
  | nil => rfl
  | cons b bs ih => exact ih (s.poke a b) (a + 1)
@[simp] theorem State.pokeList_stack (a : Nat) (bs : List Byte) : (s.pokeList a bs).stack = s.stack := by
  induction bs generalizing a s with
  | nil => rfl
  | cons b bs ih => exact ih (s.poke a b) (a + 1)
@[simp] theorem State.pokeList_dt (a : Nat) (bs : List Byte) : (s.pokeList a bs).dt = s.dt := by
  induction bs generalizing a s with
  | nil => rfl
  | cons b bs ih => exact ih (s.poke a b) (a + 1)
@[simp] theorem State.pokeList_st (a : Nat) (bs : List Byte) : (s.pokeList a bs).st = s.st := by
  induction bs generalizing a s with
  | nil => rfl
  | cons b bs ih => exact ih (s.poke a b) (a + 1)
@[simp] theorem State.pokeList_key (a : Nat) (bs : List Byte) : (s.pokeList a bs).key = s.key := by
  induction bs generalizing a s with
  | nil => rfl
  | cons b bs ih => exact ih (s.poke a b) (a + 1)
@[simp] theorem State.pokeList_disp (a : Nat) (bs : List Byte) : (s.pokeList a bs).disp = s.disp := by
  induction bs generalizing a s with
  | nil => rfl
  | cons b bs ih => exact ih (s.poke a b) (a + 1)
@[simp] theorem State.pokeList_dirty (a : Nat) (bs : List Byte) : (s.pokeList a bs).dirty = s.dirty := by
  induction bs generalizing a s with
  | nil => rfl
  | cons b bs ih => exact ih (s.poke a b) (a + 1)
@[simp] theorem State.pokeList_run (a : Nat) (bs : List Byte) : (s.pokeList a bs).run = s.run := by
  induction bs generalizing a s with
  | nil => rfl
  | cons b bs ih => exact ih (s.poke a b) (a + 1)
@[simp] theorem State.pokeList_cfg (a : Nat) (bs : List Byte) : (s.pokeList a bs).cfg = s.cfg := by
  induction bs generalizing a s with
  | nil => rfl
  | cons b bs ih => exact ih (s.poke a b) (a + 1)
@[simp] theorem State.pokeList_unmatchedCount (a : Nat) (bs : List Byte) : (s.pokeList a bs).unmatchedCount = s.unmatchedCount := by
  induction bs generalizing a s with
  | nil => rfl
  | cons b bs ih => exact ih (s.poke a b) (a + 1)
@[simp] theorem State.pokeList_draws (a : Nat) (bs : List Byte) : (s.pokeList a bs).draws = s.draws := by
  induction bs generalizing a s with
  | nil => rfl
  | cons b bs ih => exact ih (s.poke a b) (a + 1)
@[simp] theorem State.pokeList_inputs (a : Nat) (bs : List Byte) : (s.pokeList a bs).inputs = s.inputs := by
  induction bs generalizing a s with
  | nil => rfl
  | cons b bs ih => exact ih (s.poke a b) (a + 1)
@[simp] theorem State.storeRegs_v (x : Reg) : (s.storeRegs x).v = s.v := State.pokeList_v s _ _
@[simp] theorem State.storeRegs_index (x : Reg) : (s.storeRegs x).index = s.index := State.pokeList_index s _ _
@[simp] theorem State.storeRegs_pc (x : Reg) : (s.storeRegs x).pc = s.pc := State.pokeList_pc s _ _
@[simp] theorem State.storeRegs_stack (x : Reg) : (s.storeRegs x).stack = s.stack := State.pokeList_stack s _ _
@[simp] theorem State.storeRegs_dt (x : Reg) : (s.storeRegs x).dt = s.dt := State.pokeList_dt s _ _
@[simp] theorem State.storeRegs_st (x : Reg) : (s.storeRegs x).st = s.st := State.pokeList_st s _ _
@[simp] theorem State.storeRegs_key (x : Reg) : (s.storeRegs x).key = s.key := State.pokeList_key s _ _
@[simp] theorem State.storeRegs_disp (x : Reg) : (s.storeRegs x).disp = s.disp := State.pokeList_disp s _ _
@[simp] theorem State.storeRegs_dirty (x : Reg) : (s.storeRegs x).dirty = s.dirty := State.pokeList_dirty s _ _
@[simp] theorem State.storeRegs_run (x : Reg) : (s.storeRegs x).run = s.run := State.pokeList_run s _ _
@[simp] theorem State.storeRegs_cfg (x : Reg) : (s.storeRegs x).cfg = s.cfg := State.pokeList_cfg s _ _
@[simp] theorem State.storeRegs_unmatchedCount (x : Reg) : (s.storeRegs x).unmatchedCount = s.unmatchedCount := State.pokeList_unmatchedCount s _ _
@[simp] theorem State.storeRegs_draws (x : Reg) : (s.storeRegs x).draws = s.draws := State.pokeList_draws s _ _
@[simp] theorem State.storeRegs_inputs (x : Reg) : (s.storeRegs x).inputs = s.inputs := State.pokeList_inputs s _ _

/-! A list of register loads: V alone (R165). -/

@[simp] theorem State.loadRegList_index (base : Nat) (rs : List Reg) : (s.loadRegList base rs).index = s.index := by
  induction rs generalizing s with
  | nil => rfl
  | cons r rs ih => exact ih (s.setReg r (s.mem.read (base + r.val)))
@[simp] theorem State.loadRegList_pc (base : Nat) (rs : List Reg) : (s.loadRegList base rs).pc = s.pc := by
  induction rs generalizing s with
  | nil => rfl
  | cons r rs ih => exact ih (s.setReg r (s.mem.read (base + r.val)))
@[simp] theorem State.loadRegList_stack (base : Nat) (rs : List Reg) : (s.loadRegList base rs).stack = s.stack := by
  induction rs generalizing s with
  | nil => rfl
  | cons r rs ih => exact ih (s.setReg r (s.mem.read (base + r.val)))
@[simp] theorem State.loadRegList_dt (base : Nat) (rs : List Reg) : (s.loadRegList base rs).dt = s.dt := by
  induction rs generalizing s with
  | nil => rfl
  | cons r rs ih => exact ih (s.setReg r (s.mem.read (base + r.val)))
@[simp] theorem State.loadRegList_st (base : Nat) (rs : List Reg) : (s.loadRegList base rs).st = s.st := by
  induction rs generalizing s with
  | nil => rfl
  | cons r rs ih => exact ih (s.setReg r (s.mem.read (base + r.val)))
@[simp] theorem State.loadRegList_key (base : Nat) (rs : List Reg) : (s.loadRegList base rs).key = s.key := by
  induction rs generalizing s with
  | nil => rfl
  | cons r rs ih => exact ih (s.setReg r (s.mem.read (base + r.val)))
@[simp] theorem State.loadRegList_disp (base : Nat) (rs : List Reg) : (s.loadRegList base rs).disp = s.disp := by
  induction rs generalizing s with
  | nil => rfl
  | cons r rs ih => exact ih (s.setReg r (s.mem.read (base + r.val)))
@[simp] theorem State.loadRegList_dirty (base : Nat) (rs : List Reg) : (s.loadRegList base rs).dirty = s.dirty := by
  induction rs generalizing s with
  | nil => rfl
  | cons r rs ih => exact ih (s.setReg r (s.mem.read (base + r.val)))
@[simp] theorem State.loadRegList_mem (base : Nat) (rs : List Reg) : (s.loadRegList base rs).mem = s.mem := by
  induction rs generalizing s with
  | nil => rfl
  | cons r rs ih => exact ih (s.setReg r (s.mem.read (base + r.val)))
@[simp] theorem State.loadRegList_run (base : Nat) (rs : List Reg) : (s.loadRegList base rs).run = s.run := by
  induction rs generalizing s with
  | nil => rfl
  | cons r rs ih => exact ih (s.setReg r (s.mem.read (base + r.val)))
@[simp] theorem State.loadRegList_cfg (base : Nat) (rs : List Reg) : (s.loadRegList base rs).cfg = s.cfg := by
  induction rs generalizing s with
  | nil => rfl
  | cons r rs ih => exact ih (s.setReg r (s.mem.read (base + r.val)))
@[simp] theorem State.loadRegList_unmatchedCount (base : Nat) (rs : List Reg) : (s.loadRegList base rs).unmatchedCount = s.unmatchedCount := by
  induction rs generalizing s with
  | nil => rfl
  | cons r rs ih => exact ih (s.setReg r (s.mem.read (base + r.val)))
@[simp] theorem State.loadRegList_draws (base : Nat) (rs : List Reg) : (s.loadRegList base rs).draws = s.draws := by
  induction rs generalizing s with
  | nil => rfl
  | cons r rs ih => exact ih (s.setReg r (s.mem.read (base + r.val)))
@[simp] theorem State.loadRegList_inputs (base : Nat) (rs : List Reg) : (s.loadRegList base rs).inputs = s.inputs := by
  induction rs generalizing s with
  | nil => rfl
  | cons r rs ih => exact ih (s.setReg r (s.mem.read (base + r.val)))
@[simp] theorem State.loadRegs_index (x : Reg) : (s.loadRegs x).index = s.index := State.loadRegList_index s _ _
@[simp] theorem State.loadRegs_pc (x : Reg) : (s.loadRegs x).pc = s.pc := State.loadRegList_pc s _ _
@[simp] theorem State.loadRegs_stack (x : Reg) : (s.loadRegs x).stack = s.stack := State.loadRegList_stack s _ _
@[simp] theorem State.loadRegs_dt (x : Reg) : (s.loadRegs x).dt = s.dt := State.loadRegList_dt s _ _
@[simp] theorem State.loadRegs_st (x : Reg) : (s.loadRegs x).st = s.st := State.loadRegList_st s _ _
@[simp] theorem State.loadRegs_key (x : Reg) : (s.loadRegs x).key = s.key := State.loadRegList_key s _ _
@[simp] theorem State.loadRegs_disp (x : Reg) : (s.loadRegs x).disp = s.disp := State.loadRegList_disp s _ _
@[simp] theorem State.loadRegs_dirty (x : Reg) : (s.loadRegs x).dirty = s.dirty := State.loadRegList_dirty s _ _
@[simp] theorem State.loadRegs_mem (x : Reg) : (s.loadRegs x).mem = s.mem := State.loadRegList_mem s _ _
@[simp] theorem State.loadRegs_run (x : Reg) : (s.loadRegs x).run = s.run := State.loadRegList_run s _ _
@[simp] theorem State.loadRegs_cfg (x : Reg) : (s.loadRegs x).cfg = s.cfg := State.loadRegList_cfg s _ _
@[simp] theorem State.loadRegs_unmatchedCount (x : Reg) : (s.loadRegs x).unmatchedCount = s.unmatchedCount := State.loadRegList_unmatchedCount s _ _
@[simp] theorem State.loadRegs_draws (x : Reg) : (s.loadRegs x).draws = s.draws := State.loadRegList_draws s _ _
@[simp] theorem State.loadRegs_inputs (x : Reg) : (s.loadRegs x).inputs = s.inputs := State.loadRegList_inputs s _ _

/-! ## Whole states: what the operations that recurse or branch leave -/

/-- A list of stores changes memory alone (R163, R164). -/
theorem State.pokeList_eq (a : Nat) (bs : List Byte) : s.pokeList a bs = { s with mem := (s.pokeList a bs).mem } := by
  induction bs generalizing s a with
  | nil => rfl
  | cons b bs ih => exact ih (s.poke a b) (a + 1)

/-- FX55's block changes memory alone (R164). -/
theorem State.storeRegs_eq (x : Reg) : s.storeRegs x = { s with mem := (s.storeRegs x).mem } := State.pokeList_eq s _ _

/-- A list of loads changes V alone (R165). -/
theorem State.loadRegList_eq (base : Nat) (rs : List Reg) :
    s.loadRegList base rs = { s with v := (s.loadRegList base rs).v } := by
  induction rs generalizing s with
  | nil => rfl
  | cons r rs ih => exact ih (s.setReg r (s.mem.read (base + r.val)))

/-- FX65's block changes V alone (R165). -/
theorem State.loadRegs_eq (x : Reg) : s.loadRegs x = { s with v := (s.loadRegs x).v } := State.loadRegList_eq s _ _

/-- VF after DRW changes V alone (R183, R184). -/
theorem State.setCollision_eq (l : Option Bool) (c : Bool) :
    s.setCollision l c = { s with v := (s.setCollision l c).v } := by
  unfold State.setCollision
  split
  · split <;> rfl
  · rfl

/-! ## Reading a register after an update -/

theorem State.reg_congr {s t : State} (h : t.v = s.v) (x : Reg) : t.reg x = s.reg x := by
  unfold State.reg; simp only [h]

/-- A register read after a register write (R20). -/
@[simp] theorem State.reg_setReg (x y : Reg) (b : Byte) :
    (s.setReg x b).reg y = if y = x then b else s.reg y := by
  unfold State.reg State.setReg
  simp only [Vector.getElem_set, Fin.ext_iff, eq_comm]

/-- A register read after a result and its flag: the flag wins in VF (R23). -/
@[simp] theorem State.reg_setResultFlag (x y : Reg) (b : Byte) (f : Bool) :
    (s.setResultFlag x b f).reg y = if y = VF then flagByte f else if y = x then b else s.reg y := by
  unfold State.setResultFlag; simp only [State.reg_setReg]

/-- Two states agree on V when they agree on every register. -/
theorem State.v_ext {s t : State} (h : ∀ r, t.reg r = s.reg r) : t.v = s.v :=
  Vector.ext fun k hk => h ⟨k, hk⟩

end Sys2Proof.Machine
end

