-- ==== Sys2Proof/Laws/Memory.lean ====
section
/-! SUPPORT. Memory: read after write, the canonical form is kept, equal readings are equal data. -/

namespace Sys2Proof.Machine

/-- Below the first listed address memory reads as the background. -/
theorem Memory.read_of_lt {m : Memory} {lo a : Nat} (h : Memory.wfFrom lo m = true) (ha : a < lo) :
    Memory.read m a = Memory.background a := by
  induction m generalizing lo with
  | nil => rfl
  | cons c m ih =>
    obtain ⟨k, b⟩ := c
    simp only [Memory.wfFrom, Bool.and_eq_true, decide_eq_true_eq] at h
    obtain ⟨⟨⟨hk, -⟩, -⟩, hm⟩ := h
    simp only [Memory.read, if_neg (show a ≠ k by omega)]
    exact ih hm (by omega)

/-- The canonical form from an address on holds from every lower one on. -/
theorem Memory.wfFrom_mono {m : Memory} {lo lo' : Nat} (h : Memory.wfFrom lo m = true) (hl : lo' ≤ lo) :
    Memory.wfFrom lo' m = true := by
  cases m with
  | nil => rfl
  | cons c m =>
    obtain ⟨k, b⟩ := c
    simp only [Memory.wfFrom, Bool.and_eq_true, decide_eq_true_eq] at h ⊢
    exact ⟨⟨⟨by omega, h.1.1.2⟩, h.1.2⟩, h.2⟩

theorem Memory.read_write_from {m : Memory} {lo : Nat} (h : Memory.wfFrom lo m = true) (a c : Nat) (b : Byte) :
    Memory.read (Memory.write m a b) c = if c = a then b else Memory.read m c := by
  induction m generalizing lo with
  | nil =>
    simp only [Memory.write]
    split
    · rename_i hb
      by_cases hc : c = a
      · subst hc; simp only [Memory.read, hb, if_true]
      · simp only [if_neg hc]
    · simp only [Memory.read]
  | cons e m ih =>
    obtain ⟨k, d⟩ := e
    simp only [Memory.wfFrom, Bool.and_eq_true, decide_eq_true_eq] at h
    obtain ⟨⟨⟨-, -⟩, -⟩, hm⟩ := h
    simp only [Memory.write]
    split
    · rename_i hak
      split
      · rename_i hb
        by_cases hc : c = a
        · subst hc
          simp only [Memory.read, if_neg (show c ≠ k by omega), if_true, hb]
          exact Memory.read_of_lt hm (by omega)
        · simp only [if_neg hc]
      · simp only [Memory.read]
    · split
      · rename_i _ hak
        subst hak
        split
        · rename_i hb
          by_cases hc : c = a
          · subst hc
            simp only [if_true, hb]
            exact Memory.read_of_lt hm (by omega)
          · simp only [Memory.read, if_neg hc]
        · simp only [Memory.read]
          split <;> rfl
      · simp only [Memory.read, ih hm]
        by_cases hc : c = k
        · subst hc
          simp only [if_true, if_neg (show c ≠ a by omega)]
        · simp only [if_neg hc]

/-- A read after a write: the written byte at its address, the old byte everywhere else (R62). -/
theorem Memory.read_write {m : Memory} (h : m.wf = true) (a c : Nat) (b : Byte) :
    Memory.read (Memory.write m a b) c = if c = a then b else Memory.read m c :=
  Memory.read_write_from h a c b

theorem Memory.wfFrom_write {m : Memory} {lo a : Nat} (h : Memory.wfFrom lo m = true) (hl : lo ≤ a)
    (ha : a < memSize) (b : Byte) : Memory.wfFrom lo (Memory.write m a b) = true := by
  induction m generalizing lo with
  | nil =>
    simp only [Memory.write]
    split
    · rfl
    · rename_i hb
      simp only [Memory.wfFrom, Bool.and_true, Bool.and_eq_true, decide_eq_true_eq, bne_iff_ne]
      exact ⟨⟨hl, ha⟩, hb⟩
  | cons e m ih =>
    obtain ⟨k, d⟩ := e
    have h0 := h
    simp only [Memory.wfFrom, Bool.and_eq_true, decide_eq_true_eq, bne_iff_ne] at h
    obtain ⟨⟨⟨hk, hks⟩, hd⟩, hm⟩ := h
    simp only [Memory.write]
    split
    · split
      · exact h0
      · rename_i hb
        simp only [Memory.wfFrom, Bool.and_eq_true, decide_eq_true_eq, bne_iff_ne]
        exact ⟨⟨⟨hl, ha⟩, hb⟩, ⟨⟨⟨by omega, hks⟩, hd⟩, hm⟩⟩
    · split
      · rename_i _ hak
        subst hak
        split
        · exact Memory.wfFrom_mono hm (by omega)
        · rename_i hb
          simp only [Memory.wfFrom, Bool.and_eq_true, decide_eq_true_eq, bne_iff_ne]
          exact ⟨⟨⟨hk, ha⟩, hb⟩, hm⟩
      · simp only [Memory.wfFrom, Bool.and_eq_true, decide_eq_true_eq, bne_iff_ne]
        exact ⟨⟨⟨hk, hks⟩, hd⟩, ih hm (by omega)⟩

/-- A write inside the address space keeps the canonical form. -/
theorem Memory.wf_write {m : Memory} (h : m.wf = true) {a : Nat} (ha : a < memSize) (b : Byte) :
    (Memory.write m a b).wf = true := Memory.wfFrom_write h (Nat.zero_le a) ha b

theorem Memory.ext_from {m n : Memory} {lo : Nat} (hm : Memory.wfFrom lo m = true) (hn : Memory.wfFrom lo n = true)
    (h : ∀ a, Memory.read m a = Memory.read n a) : m = n := by
  induction m generalizing n lo with
  | nil =>
    cases n with
    | nil => rfl
    | cons e n =>
      obtain ⟨k, b⟩ := e
      simp only [Memory.wfFrom, Bool.and_eq_true, decide_eq_true_eq, bne_iff_ne] at hn
      have := h k
      simp only [Memory.read, if_true] at this
      exact absurd this.symm hn.1.2
  | cons e m ih =>
    obtain ⟨k, b⟩ := e
    have hm0 := hm
    simp only [Memory.wfFrom, Bool.and_eq_true, decide_eq_true_eq, bne_iff_ne] at hm
    cases n with
    | nil =>
      have := h k
      simp only [Memory.read, if_true] at this
      exact absurd this hm.1.2
    | cons e' n =>
      obtain ⟨l, c⟩ := e'
      have hn0 := hn
      simp only [Memory.wfFrom, Bool.and_eq_true, decide_eq_true_eq, bne_iff_ne] at hn
      have hkl : k = l := by
        rcases Nat.lt_trichotomy k l with hlt | heq | hgt
        · have := h k
          simp only [Memory.read, if_true, if_neg (show k ≠ l by omega)] at this
          rw [Memory.read_of_lt hn.2 (by omega)] at this
          exact absurd this hm.1.2
        · exact heq
        · have := h l
          simp only [Memory.read, if_true, if_neg (show l ≠ k by omega)] at this
          rw [Memory.read_of_lt hm.2 (by omega)] at this
          exact absurd this.symm hn.1.2
      subst hkl
      have hbc : b = c := by
        have := h k
        simpa only [Memory.read, if_true] using this
      subst hbc
      have hmn : m = n := by
        apply ih hm.2 hn.2
        intro a
        by_cases hak : a < k + 1
        · rw [Memory.read_of_lt hm.2 hak, Memory.read_of_lt hn.2 hak]
        · have := h a
          simpa only [Memory.read, if_neg (show a ≠ k by omega)] using this
      rw [hmn]

/-- Memories in canonical form that read the same everywhere are the same data. -/
theorem Memory.ext {m n : Memory} (hm : m.wf = true) (hn : n.wf = true)
    (h : ∀ a, Memory.read m a = Memory.read n a) : m = n := Memory.ext_from hm hn h

/-- Writing the byte that is there changes nothing. -/
theorem Memory.write_read_self {m : Memory} (hm : m.wf = true) {a : Nat} (ha : a < memSize) :
    Memory.write m a (Memory.read m a) = m :=
  Memory.ext (Memory.wf_write hm ha _) hm fun c => by
    rw [Memory.read_write hm]; split
    · rename_i h; rw [h]
    · rfl

/-- A list of stores inside the address space keeps the canonical form. -/
theorem State.wf_pokeList {s : State} {a : Nat} {bs : List Byte} (h : s.mem.wf = true)
    (ha : a + bs.length ≤ memSize) : (s.pokeList a bs).mem.wf = true := by
  induction bs generalizing s a with
  | nil => exact h
  | cons b bs ih =>
    simp only [List.length_cons] at ha
    exact ih (s := s.poke a b) (Memory.wf_write h (by omega) b) (by omega)

/-- What a byte reads as after a list of stores: the listed byte inside the list, the old byte elsewhere (R163, R164). -/
theorem State.read_pokeList {s : State} {a : Nat} {bs : List Byte} (h : s.mem.wf = true)
    (ha : a + bs.length ≤ memSize) (c : Nat) :
    (s.pokeList a bs).mem.read c =
      if a ≤ c ∧ c < a + bs.length then bs.getD (c - a) 0 else s.mem.read c := by
  induction bs generalizing s a with
  | nil => simp only [State.pokeList, List.length_nil, if_neg (show ¬(a ≤ c ∧ c < a + 0) by omega)]
  | cons b bs ih =>
    simp only [List.length_cons] at ha
    have hw : (s.poke a b).mem.wf = true := Memory.wf_write h (by omega) b
    simp only [State.pokeList]
    rw [ih hw (by omega)]
    simp only [State.poke_mem, Memory.read_write h, List.length_cons]
    by_cases h1 : a + 1 ≤ c ∧ c < a + 1 + bs.length
    · rw [if_pos h1, if_pos (show a ≤ c ∧ c < a + (bs.length + 1) by omega)]
      have : c - a = c - (a + 1) + 1 := by omega
      rw [this, List.getD_cons_succ]
    · rw [if_neg h1]
      by_cases h2 : c = a
      · subst h2
        rw [if_pos rfl, if_pos (show c ≤ c ∧ c < c + (bs.length + 1) by omega)]
        simp only [Nat.sub_self, List.getD_cons_zero]
      · rw [if_neg h2, if_neg (show ¬(a ≤ c ∧ c < a + (bs.length + 1)) by omega)]

end Sys2Proof.Machine
end

