-- ==== Sys2Proof/Laws/Ops.lean ====
section
/-! SUPPORT. The shared operations: checks, the stack, the tail, the free draw. One lemma each says all that it can do. -/

namespace Sys2Proof.Machine

/-! ## Checks (R51, R54, R55, R225) -/

theorem checkRead_eq_none {a : Nat} : checkRead a = none ↔ a < 0x1000 := by
  unfold checkRead memSize; split <;> simp <;> omega

theorem checkRead_of_ge {a : Nat} (h : 0x1000 ≤ a) : checkRead a = some { cause := .memBounds, addr := some a } := by
  unfold checkRead memSize; rw [if_pos h]

theorem checkWrite_eq_none {a : Nat} : checkWrite a = none ↔ 0x050 ≤ a ∧ a < 0x1000 := by
  unfold checkWrite memSize; split
  · simp; omega
  · split <;> simp <;> omega

theorem checkWrite_of_ge {a : Nat} (h : 0x1000 ≤ a) : checkWrite a = some { cause := .memBounds, addr := some a } := by
  unfold checkWrite memSize; rw [if_pos h]

theorem checkWrite_of_font {a : Nat} (h : a < 0x050) : checkWrite a = some { cause := .fontWrite, addr := some a } := by
  unfold checkWrite memSize; rw [if_neg (by omega), if_pos h]

/-- Every check passes exactly when none of the addresses fails. -/
theorem firstFailure_eq_none {check : Nat → Option Fatal} {as : List Nat} :
    firstFailure check as = none ↔ ∀ a ∈ as, check a = none := by
  induction as with
  | nil => simp [firstFailure]
  | cons a as ih =>
    simp only [firstFailure, List.forall_mem_cons]
    split
    · rename_i f hf; simp [hf]
    · rename_i hf; simp [hf, ih]

/-- The first failure is that of an address of the list, whose predecessors all pass. -/
theorem firstFailure_eq_some {check : Nat → Option Fatal} {as : List Nat} {f : Fatal}
    (h : firstFailure check as = some f) : ∃ a ∈ as, check a = some f := by
  induction as with
  | nil => simp [firstFailure] at h
  | cons a as ih =>
    simp only [firstFailure] at h
    split at h
    · rename_i g hg
      obtain rfl : g = f := by simpa using h
      exact ⟨a, List.mem_cons_self, hg⟩
    · obtain ⟨b, hb, hc⟩ := ih h
      exact ⟨b, List.mem_cons_of_mem a hb, hc⟩

/-- The addresses of a block at I are consecutive (R166). -/
theorem dataAddrs_eq_range' (s : State) (n : Nat) : dataAddrs s n = List.range' s.index.toNat n := by
  unfold dataAddrs; rw [List.range'_eq_map_range]

theorem mem_dataAddrs {s : State} {n a : Nat} : a ∈ dataAddrs s n ↔ s.index.toNat ≤ a ∧ a < s.index.toNat + n := by
  rw [dataAddrs_eq_range', List.mem_range'_1]

/-- A block of reads passes exactly when its last address is in the address space (R54). -/
theorem firstFailure_checkRead_none {s : State} {n : Nat} :
    firstFailure checkRead (dataAddrs s n) = none ↔ n = 0 ∨ s.index.toNat + n ≤ 0x1000 := by
  rw [firstFailure_eq_none]
  simp only [mem_dataAddrs, checkRead_eq_none]
  constructor
  · intro h
    by_cases hn : n = 0
    · exact .inl hn
    · have := h (s.index.toNat + n - 1) (by omega); omega
  · intro h a ha; omega

/-- A block of writes passes exactly when it is in the address space and above the font (R55). -/
theorem firstFailure_checkWrite_none {s : State} {n : Nat} (hn : n ≠ 0) :
    firstFailure checkWrite (dataAddrs s n) = none ↔ 0x050 ≤ s.index.toNat ∧ s.index.toNat + n ≤ 0x1000 := by
  rw [firstFailure_eq_none]
  simp only [mem_dataAddrs, checkWrite_eq_none]
  constructor
  · intro h
    have h1 := h s.index.toNat (by omega)
    have h2 := h (s.index.toNat + n - 1) (by omega)
    omega
  · intro h a ha; omega

theorem firstFailure_range'_checkRead {b n : Nat} (h : 0x1000 < b + n) (hn : n ≠ 0) :
    firstFailure checkRead (List.range' b n) = some { cause := .memBounds, addr := some (max b 0x1000) } := by
  induction n generalizing b with
  | zero => exact absurd rfl hn
  | succ n ih =>
    rw [List.range'_succ]
    simp only [firstFailure]
    by_cases hb : 0x1000 ≤ b
    · rw [checkRead_of_ge hb, Nat.max_eq_left hb]
    · rw [checkRead_eq_none.2 (by omega)]
      have := ih (b := b + 1) (by omega) (by omega)
      rw [show max (b + 1) 0x1000 = max b 0x1000 by omega] at this
      exact this

/-- The fault of a block of reads: the first address at or above 0x1000 (R54, R225). -/
theorem firstFailure_checkRead_some {s : State} {n : Nat} (hn : n ≠ 0) (h : 0x1000 < s.index.toNat + n) :
    firstFailure checkRead (dataAddrs s n) = some { cause := .memBounds, addr := some (max s.index.toNat 0x1000) } := by
  rw [dataAddrs_eq_range']; exact firstFailure_range'_checkRead h hn

theorem firstFailure_range'_checkWrite {b n : Nat} (hb : 0x050 ≤ b) (h : 0x1000 < b + n) (hn : n ≠ 0) :
    firstFailure checkWrite (List.range' b n) = some { cause := .memBounds, addr := some (max b 0x1000) } := by
  induction n generalizing b with
  | zero => exact absurd rfl hn
  | succ n ih =>
    rw [List.range'_succ]
    simp only [firstFailure]
    by_cases hb' : 0x1000 ≤ b
    · rw [checkWrite_of_ge hb', Nat.max_eq_left hb']
    · rw [checkWrite_eq_none.2 (by omega)]
      have := ih (b := b + 1) (by omega) (by omega) (by omega)
      rw [show max (b + 1) 0x1000 = max b 0x1000 by omega] at this
      exact this

/-- The fault of a block of writes above the font: the first address at or above 0x1000 (R55, R225). -/
theorem firstFailure_checkWrite_bounds {s : State} {n : Nat} (hn : n ≠ 0) (hb : 0x050 ≤ s.index.toNat)
    (h : 0x1000 < s.index.toNat + n) :
    firstFailure checkWrite (dataAddrs s n) = some { cause := .memBounds, addr := some (max s.index.toNat 0x1000) } := by
  rw [dataAddrs_eq_range']; exact firstFailure_range'_checkWrite hb h hn

/-- The fault of a block of writes that starts in the font: FONT_WRITE at its first address (R55, R225). -/
theorem firstFailure_checkWrite_font {s : State} {n : Nat} (hn : n ≠ 0) (hb : s.index.toNat < 0x050) :
    firstFailure checkWrite (dataAddrs s n) = some { cause := .fontWrite, addr := some s.index.toNat } := by
  rw [dataAddrs_eq_range']
  obtain ⟨m, rfl⟩ := Nat.exists_eq_succ_of_ne_zero hn
  rw [List.range'_succ]
  simp only [firstFailure, checkWrite_of_font hb]

/-! ## The call stack (R28) -/

/-- All that a push can do. -/
theorem State.push_cases (s : State) (a : Word) :
    (s.stack.length < 16 ∧ s.push a = .ok { s with stack := a :: s.stack }) ∨
      (16 ≤ s.stack.length ∧ s.push a = .error { cause := .stackOverflow, addr := none }) := by
  unfold State.push stackDepth
  split
  · rename_i h; exact .inl ⟨h, rfl⟩
  · rename_i h; exact .inr ⟨by omega, rfl⟩

/-- All that a pop can do. -/
theorem State.pop_cases (s : State) :
    (∃ a rest, s.stack = a :: rest ∧ s.pop = .ok (a, { s with stack := rest })) ∨
      (s.stack = [] ∧ s.pop = .error { cause := .stackUnderflow, addr := none }) := by
  unfold State.pop
  cases h : s.stack with
  | nil => exact .inr ⟨rfl, rfl⟩
  | cons a rest => exact .inl ⟨a, rest, rfl, rfl⟩

/-! ## The tail and the free draw -/

/-- The ST tick never goes below 0 and takes one otherwise (R30, R105). -/
theorem soundTick_toNat (st : Byte) : (soundTick st).toNat = st.toNat - 1 := by
  unfold soundTick
  split
  · rename_i h; subst h; rfl
  · rename_i h
    have : st.toNat ≠ 0 := fun h0 => h (BitVec.eq_of_toNat_eq (by simpa using h0))
    have := st.isLt
    rw [BitVec.toNat_sub]; simp; omega

/-- A draw answers the free value of its number and advances the number alone (R152). -/
@[simp] theorem State.drawRandom_fst (s : State) : s.drawRandom.1 = Config.randomByte s.draws := rfl

@[simp] theorem State.drawRandom_snd (s : State) : s.drawRandom.2 = { s with draws := s.draws + 1 } := rfl

/-! ## The fetch (R102) -/

/-- All that a fetch can do: LOW_FETCH, MEM_BOUNDS at pc or pc + 1, or the big-endian word at pc. -/
theorem State.fetch_cases (s : State) :
    (s.pc.toNat < 0x200 ∧ s.fetch = .error { cause := .lowFetch, addr := some s.pc.toNat }) ∨
      (0x0FFF ≤ s.pc.toNat ∧ s.fetch = .error { cause := .memBounds, addr := some (max s.pc.toNat 0x1000) }) ∨
      (0x200 ≤ s.pc.toNat ∧ s.pc.toNat < 0x0FFF ∧
        s.fetch = .ok (wordOfBytes (s.mem.read s.pc.toNat) (s.mem.read (s.pc.toNat + 1)))) := by
  unfold State.fetch programBase
  by_cases h1 : s.pc.toNat < 0x200
  · exact .inl ⟨h1, by rw [if_pos h1]⟩
  · rw [if_neg h1]
    unfold State.memRead2
    by_cases h2 : 0x0FFF ≤ s.pc.toNat
    · refine .inr (.inl ⟨h2, ?_⟩)
      rw [show [s.pc.toNat, s.pc.toNat + 1] = List.range' s.pc.toNat 2 from rfl,
        firstFailure_range'_checkRead (by omega) (by omega)]
    · refine .inr (.inr ⟨by omega, by omega, ?_⟩)
      have : firstFailure checkRead [s.pc.toNat, s.pc.toNat + 1] = none := by
        rw [firstFailure_eq_none]
        intro a ha
        rw [checkRead_eq_none]
        simp only [List.mem_cons, List.not_mem_nil, or_false] at ha
        omega
      rw [this]

end Sys2Proof.Machine
end

