-- ==== Sys2Proof/Laws/Blocks.lean ====
section
/-! SUPPORT. Block stores and loads of V0 to Vx, and the flags and operands as numbers (rules R148 to R151, R163 to R165). -/

namespace Sys2Proof.Machine

/-! ## Blocks of registers -/

theorem mem_allRegs (r : Reg) : r ∈ allRegs := by revert r; decide

theorem mem_regsUpTo {x r : Reg} : r ∈ regsUpTo x ↔ r ≤ x := by
  unfold regsUpTo; simp [mem_allRegs]

theorem nodup_regsUpTo (x : Reg) : (regsUpTo x).Nodup := List.Nodup.filter _ (by decide)

theorem length_regsUpTo (x : Reg) : (regsUpTo x).length = x.val + 1 := by revert x; decide

theorem getElem?_regsUpTo (x : Reg) (k : Fin 16) (h : k ≤ x) : (regsUpTo x)[k.val]? = some k := by
  revert x k; decide

/-- A register after a list of loads (R165). -/
theorem State.reg_loadRegList {s : State} {base : Nat} {rs : List Reg} (h : rs.Nodup) (r : Reg) :
    (s.loadRegList base rs).reg r = if r ∈ rs then s.mem.read (base + r.val) else s.reg r := by
  induction rs generalizing s with
  | nil => simp [State.loadRegList]
  | cons q rs ih =>
    rw [List.nodup_cons] at h
    simp only [State.loadRegList, ih h.2, State.setReg_mem, State.reg_setReg, List.mem_cons]
    by_cases hq : r = q
    · subst hq; simp [h.1]
    · simp [hq]

/-- A register after FX65's block: from memory up to Vx, unchanged above (R165). -/
theorem State.reg_loadRegs (s : State) (x r : Reg) :
    (s.loadRegs x).reg r = if r ≤ x then s.mem.read (s.index.toNat + r.val) else s.reg r := by
  unfold State.loadRegs; rw [State.reg_loadRegList (nodup_regsUpTo x)]; simp only [mem_regsUpTo]

/-- A byte after FX55's block: V0 to Vx from I on, unchanged elsewhere (R164). -/
theorem State.read_storeRegs {s : State} {x : Reg} (h : s.mem.wf = true) (hb : s.index.toNat + x.val + 1 ≤ 0x1000) (c : Nat) :
    (s.storeRegs x).mem.read c =
      if s.index.toNat ≤ c ∧ c ≤ s.index.toNat + x.val then s.reg (Fin.ofNat 16 (c - s.index.toNat)) else s.mem.read c := by
  have hl : ((regsUpTo x).map s.reg).length = x.val + 1 := by rw [List.length_map, length_regsUpTo]
  unfold State.storeRegs
  rw [State.read_pokeList h (by rw [hl]; unfold memSize; omega), hl]
  by_cases hc : s.index.toNat ≤ c ∧ c ≤ s.index.toNat + x.val
  · rw [if_pos hc, if_pos (by omega)]
    have hx := x.isLt
    have hk : c - s.index.toNat < 16 := by omega
    have := getElem?_regsUpTo x ⟨c - s.index.toNat, hk⟩ (Fin.le_def.2 (by simp only; omega))
    rw [List.getD_eq_getElem?_getD, List.getElem?_map, this]
    simp only [Option.map_some, Option.getD_some]
    congr 1
    exact Fin.ext (Nat.mod_eq_of_lt hk).symm
  · rw [if_neg hc, if_neg (by omega)]

theorem State.wf_storeRegs {s : State} {x : Reg} (h : s.mem.wf = true) (hb : s.index.toNat + x.val + 1 ≤ 0x1000) :
    (s.storeRegs x).mem.wf = true := by
  unfold State.storeRegs
  exact State.wf_pokeList h (by rw [List.length_map, length_regsUpTo]; unfold memSize; omega)

/-! ## Operands and flags as numbers -/

@[simp] theorem toNat_zextAddr (nnn : Addr12) : (zextAddr nnn).toNat = nnn.toNat := by
  have := nnn.isLt; unfold zextAddr; rw [BitVec.toNat_setWidth]; omega

@[simp] theorem toNat_zextByte (b : Byte) : (zextByte b).toNat = b.toNat := by
  have := b.isLt; unfold zextByte; rw [BitVec.toNat_setWidth]; omega

@[simp] theorem toNat_glyphAddr (b : Byte) : (glyphAddr b).toNat = b.toNat * 5 := by
  have := b.isLt; unfold glyphAddr; rw [BitVec.toNat_ofNat]; omega

@[simp] theorem toNat_keyByte (k : Key) : (keyByte k).toNat = k.val := by
  have := k.isLt; unfold keyByte; rw [BitVec.toNat_ofNat]; omega

/-- KeyEq is the equality of a key's code with the full byte (R207). -/
theorem keyEq_iff (k : Option Key) (b : Byte) : keyEq k b = true ↔ ∃ key, k = some key ∧ key.val = b.toNat := by
  unfold keyEq; cases k <;> simp

theorem flagByte_eq (b : Bool) : flagByte b = if b = true then 1 else 0 := rfl

/-- The bit a right shift shifts out is `src mod 2` (R153). -/
theorem shrOut_eq (b : Byte) : shrOut b = decide (b.toNat % 2 = 1) := by revert b; decide

/-- The bit a left shift shifts out is `src div 128` (R153). -/
theorem shlOut_eq (b : Byte) : shlOut b = decide (b.toNat / 128 = 1) := by revert b; decide

theorem toNat_shiftRight_one (b : Byte) : (b >>> 1).toNat = b.toNat / 2 := by
  rw [BitVec.toNat_ushiftRight, Nat.shiftRight_eq_div_pow]

theorem toNat_shiftLeft_one (b : Byte) : (b <<< 1).toNat = 2 * b.toNat % 256 := by
  rw [BitVec.toNat_shiftLeft, Nat.shiftLeft_eq]; omega

end Sys2Proof.Machine
end

