-- ==== Sys2Proof/Laws/Decode.lean ====
section
/-! SUPPORT. The fields of the layouts of rule R82, and a word as its fields, by way of the numbers they stand for. -/

namespace Sys2Proof

@[simp] theorem regOfNibble_nibbleOfReg (x : Reg) : regOfNibble (nibbleOfReg x) = x := rfl
@[simp] theorem nibbleOfReg_regOfNibble (b : Nibble) : nibbleOfReg (regOfNibble b) = b := rfl

/-- An append as a number. -/
theorem toNat_append_mul {m n : Nat} (a : BitVec m) (b : BitVec n) : (a ++ b).toNat = a.toNat * 2 ^ n + b.toNat := by
  rw [BitVec.toNat_append, ← Nat.shiftLeft_add_eq_or_of_lt b.isLt, Nat.shiftLeft_eq]

variable (op n : Nibble) (x y : Reg) (kk : Byte) (nnn : Addr12) (w : Word)

/-! ## Numbers of layouts and fields -/

theorem toNat_wordNNN : (wordNNN op nnn).toNat = op.toNat * 4096 + nnn.toNat := toNat_append_mul op nnn

theorem toNat_wordXKK : (wordXKK op x kk).toNat = op.toNat * 4096 + x.val * 256 + kk.toNat := by
  have h1 := toNat_append_mul (op ++ nibbleOfReg x) kk
  have h2 := toNat_append_mul op (nibbleOfReg x)
  have h3 : (nibbleOfReg x).toNat = x.val := rfl
  have h : (wordXKK op x kk).toNat = (op ++ nibbleOfReg x ++ kk).toNat := rfl
  omega

theorem toNat_wordXYN : (wordXYN op x y n).toNat = op.toNat * 4096 + x.val * 256 + y.val * 16 + n.toNat := by
  have h1 := toNat_append_mul (op ++ nibbleOfReg x ++ nibbleOfReg y) n
  have h2 := toNat_append_mul (op ++ nibbleOfReg x) (nibbleOfReg y)
  have h3 := toNat_append_mul op (nibbleOfReg x)
  have h4 : (nibbleOfReg x).toNat = x.val := rfl
  have h5 : (nibbleOfReg y).toNat = y.val := rfl
  have h : (wordXYN op x y n).toNat = (op ++ nibbleOfReg x ++ nibbleOfReg y ++ n).toNat := rfl
  omega

theorem toNat_extract (lo k : Nat) : (w.extractLsb' lo k).toNat = w.toNat / 2 ^ lo % 2 ^ k := by
  rw [BitVec.extractLsb'_toNat, Nat.shiftRight_eq_div_pow]

theorem toNat_opField : (opField w).toNat = w.toNat / 4096 := by
  have := toNat_extract w 12 4; have := w.isLt; unfold opField; omega
theorem val_xField : (xField w).val = w.toNat / 256 % 16 := by
  have h := toNat_extract w 8 4
  have : (xField w).val = (w.extractLsb' 8 4).toNat := rfl
  omega
theorem val_yField : (yField w).val = w.toNat / 16 % 16 := by
  have h := toNat_extract w 4 4
  have : (yField w).val = (w.extractLsb' 4 4).toNat := rfl
  omega
theorem toNat_nField : (nField w).toNat = w.toNat % 16 := by
  have := toNat_extract w 0 4; unfold nField; omega
theorem toNat_kkField : (kkField w).toNat = w.toNat % 256 := by
  have := toNat_extract w 0 8; unfold kkField; omega
theorem toNat_nnnField : (nnnField w).toNat = w.toNat % 4096 := by
  have := toNat_extract w 0 12; unfold nnnField; omega

/-! ## Fields of a layout -/

@[simp] theorem opField_wordNNN : opField (wordNNN op nnn) = op := by
  apply BitVec.eq_of_toNat_eq; rw [toNat_opField, toNat_wordNNN]; omega
@[simp] theorem nnnField_wordNNN : nnnField (wordNNN op nnn) = nnn := by
  apply BitVec.eq_of_toNat_eq; rw [toNat_nnnField, toNat_wordNNN]; omega
@[simp] theorem opField_wordXKK : opField (wordXKK op x kk) = op := by
  apply BitVec.eq_of_toNat_eq; rw [toNat_opField, toNat_wordXKK]; omega
@[simp] theorem xField_wordXKK : xField (wordXKK op x kk) = x := by
  apply Fin.ext; rw [val_xField, toNat_wordXKK]; omega
@[simp] theorem kkField_wordXKK : kkField (wordXKK op x kk) = kk := by
  apply BitVec.eq_of_toNat_eq; rw [toNat_kkField, toNat_wordXKK]; omega
@[simp] theorem opField_wordXYN : opField (wordXYN op x y n) = op := by
  apply BitVec.eq_of_toNat_eq; rw [toNat_opField, toNat_wordXYN]; omega
@[simp] theorem xField_wordXYN : xField (wordXYN op x y n) = x := by
  apply Fin.ext; rw [val_xField, toNat_wordXYN]; omega
@[simp] theorem yField_wordXYN : yField (wordXYN op x y n) = y := by
  apply Fin.ext; rw [val_yField, toNat_wordXYN]; omega
@[simp] theorem nField_wordXYN : nField (wordXYN op x y n) = n := by
  apply BitVec.eq_of_toNat_eq; rw [toNat_nField, toNat_wordXYN]; omega

/-! ## A word is its fields -/

theorem wordNNN_fields : wordNNN (opField w) (nnnField w) = w := by
  apply BitVec.eq_of_toNat_eq; rw [toNat_wordNNN, toNat_opField, toNat_nnnField]; omega
theorem wordXKK_fields : wordXKK (opField w) (xField w) (kkField w) = w := by
  apply BitVec.eq_of_toNat_eq; rw [toNat_wordXKK, toNat_opField, val_xField, toNat_kkField]; omega
theorem wordXYN_fields : wordXYN (opField w) (xField w) (yField w) (nField w) = w := by
  apply BitVec.eq_of_toNat_eq; rw [toNat_wordXYN, toNat_opField, val_xField, val_yField, toNat_nField]; omega

/-! ## The masks of the opcode rows -/

theorem and_append {m n : Nat} (a c : BitVec m) (b d : BitVec n) : (a ++ b) &&& (c ++ d) = (a &&& c) ++ (b &&& d) := by
  ext i hi; simp only [BitVec.getElem_and, BitVec.getElem_append]; split <;> rfl

theorem nibble_and_ones (a : Nibble) : a &&& 0xF = a := by revert a; decide
theorem nibble_and_zero (a : Nibble) : a &&& 0 = 0 := by revert a; decide

/-- A masked word, nibble by nibble. -/
theorem and_wordXYN (a b c d : Nibble) :
    w &&& wordXYN a (regOfNibble b) (regOfNibble c) d =
      wordXYN (opField w &&& a) (regOfNibble (nibbleOfReg (xField w) &&& b))
        (regOfNibble (nibbleOfReg (yField w) &&& c)) (nField w &&& d) := by
  conv => lhs; rw [← wordXYN_fields w]
  unfold wordXYN
  simp only [nibbleOfReg_regOfNibble]
  exact (and_append _ _ _ _).trans (by rw [and_append, and_append])

theorem wordXYN_inj {op' n' : Nibble} {x' y' : Reg} :
    wordXYN op x y n = wordXYN op' x' y' n' ↔ op = op' ∧ x = x' ∧ y = y' ∧ n = n' := by
  constructor
  · intro h
    exact ⟨by rw [← opField_wordXYN op n x y, h, opField_wordXYN], by rw [← xField_wordXYN op n x y, h, xField_wordXYN],
      by rw [← yField_wordXYN op n x y, h, yField_wordXYN], by rw [← nField_wordXYN op n x y, h, nField_wordXYN]⟩
  · rintro ⟨rfl, rfl, rfl, rfl⟩; rfl

/-- Mask 0xF000 keeps op. -/
theorem mask_F000 (v : Nibble) : w &&& 0xF000 = wordXYN v 0 0 0 ↔ opField w = v := by
  have h := and_wordXYN w 0xF 0 0 0
  rw [show wordXYN 0xF (regOfNibble 0) (regOfNibble 0) 0 = 0xF000 by decide] at h
  rw [h, wordXYN_inj]
  simp only [nibble_and_ones, nibble_and_zero, and_true, show regOfNibble 0 = (0 : Reg) from rfl]

/-- Mask 0xF00F keeps op and n. -/
theorem mask_F00F (v m : Nibble) : w &&& 0xF00F = wordXYN v 0 0 m ↔ opField w = v ∧ nField w = m := by
  have h := and_wordXYN w 0xF 0 0 0xF
  rw [show wordXYN 0xF (regOfNibble 0) (regOfNibble 0) 0xF = 0xF00F by decide] at h
  rw [h, wordXYN_inj]
  simp only [nibble_and_ones, nibble_and_zero, true_and, show regOfNibble 0 = (0 : Reg) from rfl]

/-- kk is y and n. -/
theorem kkField_eq (c d : Nibble) : kkField w = (c ++ d : BitVec (4 + 4)) ↔ nibbleOfReg (yField w) = c ∧ nField w = d := by
  have h1 := toNat_kkField w
  have h2 := val_yField w
  have h3 := toNat_nField w
  have h4 := toNat_append_mul c d
  have h5 : (nibbleOfReg (yField w)).toNat = (yField w).val := rfl
  constructor
  · intro h
    have h6 : (kkField w).toNat = (c ++ d).toNat := by rw [h]
    exact ⟨BitVec.eq_of_toNat_eq (by omega), BitVec.eq_of_toNat_eq (by omega)⟩
  · rintro ⟨rfl, rfl⟩
    apply BitVec.eq_of_toNat_eq
    change (kkField w).toNat = (nibbleOfReg (yField w) ++ nField w).toNat
    omega

/-- Mask 0xF0FF keeps op and kk. -/
theorem mask_F0FF (v c d : Nibble) :
    w &&& 0xF0FF = wordXYN v 0 (regOfNibble c) d ↔ opField w = v ∧ kkField w = (c ++ d : BitVec (4 + 4)) := by
  have h := and_wordXYN w 0xF 0 0xF 0xF
  rw [show wordXYN 0xF (regOfNibble 0) (regOfNibble 0xF) 0xF = 0xF0FF by decide] at h
  rw [h, wordXYN_inj, kkField_eq]
  simp only [nibble_and_ones, nibble_and_zero]
  constructor
  · rintro ⟨h1, -, h2, h3⟩; exact ⟨h1, congrArg nibbleOfReg h2, h3⟩
  · rintro ⟨h1, h2, h3⟩; exact ⟨h1, rfl, congrArg regOfNibble h2, h3⟩

/-! ## Bytes -/

/-- A word put together from its two bytes (R53). -/
@[simp] theorem wordOfBytes_extract : wordOfBytes (w.extractLsb' 8 8) (w.extractLsb' 0 8) = w := by
  have h1 := toNat_append_mul (w.extractLsb' 8 8) (w.extractLsb' 0 8)
  have h2 := toNat_extract w 8 8
  have h3 := toNat_extract w 0 8
  have h4 := w.isLt
  apply BitVec.eq_of_toNat_eq
  change (w.extractLsb' 8 8 ++ w.extractLsb' 0 8).toNat = w.toNat
  omega

/-- Decoding two bytes and more reads the first two (R80). -/
@[simp] theorem decode_two (hi lo : Byte) (rest : List Byte) :
    decode (hi :: lo :: rest) = .ok (decodeWord (wordOfBytes hi lo), rest) := rfl

end Sys2Proof
end

