-- ==== Sys2Proof/Laws/Display.lean ====
section
/-! SUPPORT. The display: reading a pixel after a write, and what a visited pixel, a sprite row and a sprite do (rules R182 to R184). -/

namespace Sys2Proof.Machine

/-- A pixel read after a pixel write (R33). -/
@[simp] theorem Grid.pixel_setPixel (g : Grid) (r r' : Fin 32) (c c' : Fin 64) (b : Bool) :
    Grid.pixel (Grid.setPixel g r c b) r' c' = if r' = r ∧ c' = c then b else Grid.pixel g r' c' := by
  obtain ⟨r, hr⟩ := r
  obtain ⟨r', hr'⟩ := r'
  unfold Grid.pixel Grid.setPixel
  simp only [Vector.getElem_set, Fin.mk.injEq]
  by_cases h : r' = r
  · subst h
    simp only [if_true, true_and, Vector.getElem_set, Fin.ext_iff]
    by_cases hc : c'.val = c.val
    · rw [if_pos hc.symm, if_pos hc]
    · rw [if_neg hc, if_neg (fun h => hc h.symm)]
  · simp only [if_neg (fun e : r = r' => h e.symm), h, false_and, if_false]

/-- Every pixel of a cleared display is unlit (R181). -/
@[simp] theorem Grid.pixel_clear (r : Fin 32) (c : Fin 64) : Grid.pixel Grid.clear r c = false := by
  unfold Grid.pixel Grid.clear; simp only [Vector.getElem_replicate]

/-- Grids with the same pixels are the same data. -/
theorem Grid.ext {g h : Grid} (H : ∀ r c, Grid.pixel g r c = Grid.pixel h r c) : g = h :=
  Vector.ext fun i hi => Vector.ext fun j hj => H ⟨i, hi⟩ ⟨j, hj⟩

/-- The sprite row that a display row shows, modulo 32. -/
def rowOf (vy : Byte) (r : Fin 32) : Nat := (r.val + 256 - vy.toNat) % 32

/-- The sprite column that a display column shows, modulo 64. -/
def colOf (vx : Byte) (c : Fin 64) : Nat := (c.val + 256 - vx.toNat) % 64

theorem eq_spriteRow {vy : Byte} {r : Fin 32} {i : Nat} (hi : i < 32) : r = spriteRow vy i ↔ rowOf vy r = i := by
  have h1 := vy.isLt; have h2 := r.isLt
  unfold spriteRow rowOf
  rw [Fin.ext_iff]; simp only [Fin.val_ofNat]; omega

theorem eq_spriteCol {vx : Byte} {c : Fin 64} {j : Nat} (hj : j < 64) : c = spriteCol vx j ↔ colOf vx c = j := by
  have h1 := vx.isLt; have h2 := c.isLt
  unfold spriteCol colOf
  rw [Fin.ext_iff]; simp only [Fin.val_ofNat]; omega

/-- The display after one visited pixel. -/
theorem pixel_drawPixel {vx vy : Byte} {i j : Nat} {bit : Bool} {d : Drawn} (hi : i < 32) (hj : j < 64) (r : Fin 32) (c : Fin 64) :
    (drawPixel vx vy i j bit d).disp.pixel r c =
      (d.disp.pixel r c ^^ (decide (rowOf vy r = i) && decide (colOf vx c = j) && bit)) := by
  unfold drawPixel
  simp only [Grid.pixel_setPixel, eq_spriteRow hi, eq_spriteCol hj]
  by_cases h : rowOf vy r = i ∧ colOf vx c = j
  · have hr := (eq_spriteRow hi).2 h.1
    have hc := (eq_spriteCol hj).2 h.2
    rw [if_pos h, ← hr, ← hc]
    simp only [h.1, h.2, decide_true, Bool.true_and]
  · rw [if_neg h]
    by_cases h1 : rowOf vy r = i
    · have h2 : ¬ colOf vx c = j := fun h2 => h ⟨h1, h2⟩
      simp only [h2, decide_false, Bool.and_false, Bool.false_and, Bool.xor_false]
    · simp only [h1, decide_false, Bool.false_and, Bool.xor_false]

/-- The first `m` bits of a sprite row. -/
def drawBits (vx vy : Byte) (i : Nat) (b : Byte) (m : Nat) (d : Drawn) : Drawn :=
  (List.range m).foldl (fun d j => drawPixel vx vy i j (spriteBit b j) d) d

theorem drawRow_eq_drawBits (vx vy : Byte) (i : Nat) (b : Byte) (d : Drawn) : drawRow vx vy i b d = drawBits vx vy i b 8 d := rfl

theorem drawBits_succ (vx vy : Byte) (i : Nat) (b : Byte) (m : Nat) (d : Drawn) :
    drawBits vx vy i b (m + 1) d = drawPixel vx vy i m (spriteBit b m) (drawBits vx vy i b m d) := by
  unfold drawBits; rw [List.range_succ, List.foldl_append]; rfl

theorem pixel_drawBits {vx vy : Byte} {i m : Nat} {b : Byte} {d : Drawn} (hi : i < 32) (hm : m ≤ 64) (r : Fin 32) (c : Fin 64) :
    (drawBits vx vy i b m d).disp.pixel r c =
      (d.disp.pixel r c ^^ (decide (rowOf vy r = i) && decide (colOf vx c < m) && spriteBit b (colOf vx c))) := by
  induction m with
  | zero => simp [drawBits]
  | succ m ih =>
    rw [drawBits_succ, pixel_drawPixel hi (by omega), ih (by omega)]
    rcases Nat.lt_trichotomy (colOf vx c) m with h | h | h
    · simp [h, show colOf vx c ≠ m by omega, show colOf vx c < m + 1 by omega]
    · simp [h]
    · simp [show colOf vx c ≠ m by omega, show ¬ colOf vx c < m by omega, show ¬ colOf vx c < m + 1 by omega]

/-- A pixel not yet visited still has its value of before: bit `m` of row `i` after the bits before it. -/
theorem pixel_drawBits_next {vx vy : Byte} {i m : Nat} {b : Byte} {d : Drawn} (hi : i < 32) (hm : m < 64) :
    (drawBits vx vy i b m d).disp.pixel (spriteRow vy i) (spriteCol vx m) = d.disp.pixel (spriteRow vy i) (spriteCol vx m) := by
  rw [pixel_drawBits hi (by omega), (eq_spriteCol hm).1 rfl]
  simp

theorem last_drawBits {vx vy : Byte} {i m : Nat} {b : Byte} {d : Drawn} (hi : i < 32) (hm : m < 64) :
    (drawBits vx vy i b (m + 1) d).last = some (d.disp.pixel (spriteRow vy i) (spriteCol vx m)) := by
  rw [drawBits_succ]; unfold drawPixel; simp only [pixel_drawBits_next hi hm]

theorem collided_drawBits {vx vy : Byte} {i m : Nat} {b : Byte} {d : Drawn} (hi : i < 32) (hm : m ≤ 64) :
    (drawBits vx vy i b m d).collided = true ↔
      d.collided = true ∨ ∃ j < m, spriteBit b j = true ∧ d.disp.pixel (spriteRow vy i) (spriteCol vx j) = true := by
  induction m with
  | zero => simp [drawBits]
  | succ m ih =>
    rw [drawBits_succ]; unfold drawPixel
    simp only [pixel_drawBits_next hi (show m < 64 by omega), Bool.or_eq_true, Bool.and_eq_true, ih (by omega)]
    constructor
    · rintro ((h | ⟨j, hj, h⟩) | h)
      · exact .inl h
      · exact .inr ⟨j, by omega, h⟩
      · exact .inr ⟨m, by omega, h⟩
    · rintro (h | ⟨j, hj, h⟩)
      · exact .inl (.inl h)
      · rcases Nat.lt_or_ge j m with hlt | hge
        · exact .inl (.inr ⟨j, hlt, h⟩)
        · obtain rfl : j = m := by omega
          exact .inr h

/-- The display after a sprite row (R182). -/
theorem pixel_drawRow {vx vy : Byte} {i : Nat} {b : Byte} {d : Drawn} (hi : i < 32) (r : Fin 32) (c : Fin 64) :
    (drawRow vx vy i b d).disp.pixel r c =
      (d.disp.pixel r c ^^ (decide (rowOf vy r = i) && decide (colOf vx c < 8) && spriteBit b (colOf vx c))) :=
  pixel_drawBits hi (by omega) r c

/-- The display after a sprite: every pixel under it is XORed with its bit, every other one is kept (R182). -/
theorem pixel_drawRows {vx vy : Byte} {i : Nat} {bs : List Byte} {d : Drawn} (hi : i + bs.length ≤ 32) (r : Fin 32) (c : Fin 64) :
    (drawRows vx vy i bs d).disp.pixel r c =
      (d.disp.pixel r c ^^ (decide (i ≤ rowOf vy r ∧ rowOf vy r < i + bs.length) && decide (colOf vx c < 8) &&
        spriteBit (bs.getD (rowOf vy r - i) 0) (colOf vx c))) := by
  induction bs generalizing i d with
  | nil =>
    simp only [drawRows, List.length_nil, Nat.add_zero]
    rw [show decide (i ≤ rowOf vy r ∧ rowOf vy r < i) = false from decide_eq_false (by omega)]
    simp
  | cons b bs ih =>
    simp only [List.length_cons] at hi ⊢
    simp only [drawRows]
    rw [ih (by omega), pixel_drawRow (by omega)]
    by_cases h : rowOf vy r = i
    · simp [h]
    · by_cases h2 : i + 1 ≤ rowOf vy r ∧ rowOf vy r < i + 1 + bs.length
      · simp only [h, h2, show i ≤ rowOf vy r ∧ rowOf vy r < i + (bs.length + 1) by omega]
        rw [show rowOf vy r - i = rowOf vy r - (i + 1) + 1 by omega, List.getD_cons_succ]
        simp
      · rw [decide_eq_false h2, decide_eq_false h,
          decide_eq_false (show ¬(i ≤ rowOf vy r ∧ rowOf vy r < i + (bs.length + 1)) by omega)]
        simp only [Bool.false_and, Bool.xor_false]

/-- The last visited pixel of a sprite that has rows (R183). -/
theorem last_drawRows {vx vy : Byte} {i : Nat} {bs : List Byte} {d : Drawn} (hi : i + bs.length ≤ 32) (hb : bs ≠ []) :
    (drawRows vx vy i bs d).last = some (d.disp.pixel (spriteRow vy (i + bs.length - 1)) (spriteCol vx 7)) := by
  induction bs generalizing i d with
  | nil => exact absurd rfl hb
  | cons b bs ih =>
    simp only [List.length_cons] at hi ⊢
    simp only [drawRows]
    by_cases h : bs = []
    · subst h
      simp only [drawRows, List.length_nil, Nat.zero_add, Nat.add_sub_cancel]
      exact last_drawBits (m := 7) (by omega) (by omega)
    · rw [ih (by omega) h, pixel_drawRow (by omega)]
      have hl : 0 < bs.length := List.length_pos_of_ne_nil h
      rw [show i + 1 + bs.length - 1 = i + (bs.length + 1) - 1 by omega,
        (eq_spriteRow (show i + (bs.length + 1) - 1 < 32 by omega)).1 rfl,
        show decide (i + (bs.length + 1) - 1 = i) = false from decide_eq_false (by omega)]
      simp

/-- A sprite collides when one of its set bits meets a pixel lit before the draw (R184). -/
theorem collided_drawRows {vx vy : Byte} {i : Nat} {bs : List Byte} {d : Drawn} (hi : i + bs.length ≤ 32) :
    (drawRows vx vy i bs d).collided = true ↔
      d.collided = true ∨ ∃ k < bs.length, ∃ j < 8, spriteBit (bs.getD k 0) j = true ∧
        d.disp.pixel (spriteRow vy (i + k)) (spriteCol vx j) = true := by
  induction bs generalizing i d with
  | nil => simp [drawRows]
  | cons b bs ih =>
    simp only [List.length_cons] at hi ⊢
    simp only [drawRows]
    rw [ih (by omega), drawRow_eq_drawBits, collided_drawBits (by omega) (by omega)]
    have hother : ∀ k j, k < bs.length →
        (drawBits vx vy i b 8 d).disp.pixel (spriteRow vy (i + 1 + k)) (spriteCol vx j) =
          d.disp.pixel (spriteRow vy (i + 1 + k)) (spriteCol vx j) := by
      intro k j hk
      rw [pixel_drawBits (by omega) (by omega), (eq_spriteRow (show i + 1 + k < 32 by omega)).1 rfl,
        show decide (i + 1 + k = i) = false from decide_eq_false (by omega)]
      simp
    constructor
    · rintro ((h | ⟨j, hj, h1, h2⟩) | ⟨k, hk, j, hj, h1, h2⟩)
      · exact .inl h
      · exact .inr ⟨0, by omega, j, hj, h1, h2⟩
      · rw [hother k j hk] at h2
        exact .inr ⟨k + 1, by omega, j, hj, h1, by rw [show i + (k + 1) = i + 1 + k by omega]; exact h2⟩
    · rintro (h | ⟨k, hk, j, hj, h1, h2⟩)
      · exact .inl (.inl h)
      · cases k with
        | zero => exact .inl (.inr ⟨j, hj, h1, h2⟩)
        | succ k =>
          refine .inr ⟨k, by omega, j, hj, h1, ?_⟩
          rw [hother k j (by omega), show i + 1 + k = i + (k + 1) by omega]; exact h2

/-- The sprite has as many bytes as DRW has rows (R182). -/
@[simp] theorem length_spriteBytes (s : State) (n : Nibble) : (spriteBytes s n).length = n.toNat := by
  unfold spriteBytes dataAddrs; simp

theorem getD_spriteBytes (s : State) (n : Nibble) {k : Nat} (hk : k < n.toNat) :
    (spriteBytes s n).getD k 0 = s.mem.read (s.index.toNat + k) := by
  unfold spriteBytes dataAddrs
  rw [List.getD_eq_getElem _ _ (by simpa using hk)]
  simp

end Sys2Proof.Machine
end

