-- ==== Sys2Proof/Laws/Load.lean ====
section
/-! SUPPORT. Start-up: what memory holds after the font and the ROM are placed, and that every placing keeps the canonical form (rules R68, R255, R256). -/

namespace Sys2Proof.Machine

/-- Placing bytes inside the address space keeps the canonical form. -/
theorem Memory.wf_place {m : Memory} {a : Nat} {bs : List Byte} (h : m.wf = true) (ha : a + bs.length ≤ memSize) :
    (m.place a bs).wf = true := by
  induction bs generalizing m a with
  | nil => exact h
  | cons b bs ih =>
    simp only [List.length_cons] at ha
    exact ih (Memory.wf_write h (by omega) b) (by omega)

/-- What a byte reads as after bytes are placed. -/
theorem Memory.read_place {m : Memory} {a : Nat} {bs : List Byte} (h : m.wf = true) (ha : a + bs.length ≤ memSize) (c : Nat) :
    (m.place a bs).read c = if a ≤ c ∧ c < a + bs.length then bs.getD (c - a) 0 else m.read c := by
  induction bs generalizing m a with
  | nil => simp only [Memory.place, List.length_nil, if_neg (show ¬(a ≤ c ∧ c < a + 0) by omega)]
  | cons b bs ih =>
    simp only [List.length_cons] at ha
    simp only [Memory.place]
    rw [ih (Memory.wf_write h (by omega) b) (by omega)]
    simp only [Memory.read_write h, List.length_cons]
    by_cases h1 : a + 1 ≤ c ∧ c < a + 1 + bs.length
    · rw [if_pos h1, if_pos (show a ≤ c ∧ c < a + (bs.length + 1) by omega), show c - a = c - (a + 1) + 1 by omega,
        List.getD_cons_succ]
    · rw [if_neg h1]
      by_cases h2 : c = a
      · subst h2
        rw [if_pos rfl, if_pos (show c ≤ c ∧ c < c + (bs.length + 1) by omega)]
        simp only [Nat.sub_self, List.getD_cons_zero]
      · rw [if_neg h2, if_neg (show ¬(a ≤ c ∧ c < a + (bs.length + 1)) by omega)]

/-- Above the font nothing is listed in the background. -/
theorem Memory.background_of_ge {a : Nat} (h : 80 ≤ a) : Memory.background a = 0 := by
  unfold Memory.background
  rw [List.getD_eq_getElem?_getD, List.getElem?_eq_none (by exact h)]
  rfl

/-- Start-up memory is in canonical form. -/
theorem startMemory_wf (font : Vector Byte 80) {rom : List Byte} (h : rom.length ≤ 3584) :
    (startMemory font rom).wf = true := by
  unfold startMemory
  refine Memory.wf_place (Memory.wf_place rfl ?_) (by unfold memSize; omega)
  rw [Vector.length_toList]; unfold memSize; omega

/-- Start-up memory: FONT, then the ROM from 0x200, zero elsewhere (R68, R256). -/
theorem startMemory_read (font : Vector Byte 80) {rom : List Byte} (h : rom.length ≤ 3584) (a : Nat) :
    (startMemory font rom).read a =
      if h : a < 80 then font[a] else if 0x200 ≤ a ∧ a < 0x200 + rom.length then rom.getD (a - 0x200) 0 else 0 := by
  have hf : 0x000 + font.toList.length ≤ memSize := by rw [Vector.length_toList]; unfold memSize; omega
  have h0 : Memory.wf [] = true := rfl
  unfold startMemory
  rw [Memory.read_place (Memory.wf_place h0 hf) (by unfold memSize; omega), Memory.read_place h0 hf]
  rw [Vector.length_toList]
  by_cases h1 : a < 80
  · rw [if_neg (by omega), if_pos (by omega), dif_pos h1, Nat.sub_zero, List.getD_eq_getElem _ _ (by rw [Vector.length_toList]; exact h1)]
    exact Vector.getElem_toList _
  · rw [dif_neg h1]
    by_cases h2 : 0x200 ≤ a ∧ a < 0x200 + rom.length
    · rw [if_pos h2, if_pos h2]
    · rw [if_neg h2, if_neg h2, if_neg (by omega)]
      exact Memory.background_of_ge (by omega)

/-- Placing an instruction at pc keeps the canonical form. -/
theorem State.wf_placeAtPc {s : State} (h : s.mem.wf = true) (bytes : List Byte) : (s.placeAtPc bytes).mem.wf = true := by
  unfold State.placeAtPc
  simp only
  split
  · split
    · exact Memory.wf_write (Memory.wf_write h (by omega) _) (by omega) _
    · exact Memory.wf_write h (by omega) _
  · split
    · exact Memory.wf_write h (by omega) _
    · exact h

/-- Start-up memory with the default font and no ROM lists nothing. -/
theorem startMemory_default : startMemory Config.defaultFont [] = [] := by decide

/-- The state at reset is the start state with the configuration and host of reset and an empty ROM (log entry 17). -/
theorem State.reset_eq_start : State.reset = State.start Config.atReset Config.hostInputs (some []) := by
  have h : startMemory Config.atReset.font [] = [] := startMemory_default
  unfold State.start
  simp only [h]
  rfl

/-- Memory at reset is in canonical form. -/
theorem State.reset_wf : State.reset.mem.wf = true := rfl

end Sys2Proof.Machine
end

