-- ==== Sys2Proof/Laws/Meanings.lean ====
section
/-! SUPPORT. All that the branching meanings, the cycle and the step can do, one lemma each; later proofs cite these and unfold nothing. -/

namespace Sys2Proof.Machine

variable (s : State)

/-! ## The meanings that can raise (R222) -/

/-- All that RET can do (R122). -/
theorem execRet_cases :
    (∃ a rest, s.stack = a :: rest ∧ execRet s = complete (({ s with stack := rest } : State).setPc a)) ∨
      (s.stack = [] ∧ execRet s = fatal .ret s { cause := .stackUnderflow, addr := none }) := by
  unfold execRet
  rcases State.pop_cases s with ⟨a, rest, h, hp⟩ | ⟨h, hp⟩
  · exact .inl ⟨a, rest, h, by rw [hp]⟩
  · exact .inr ⟨h, by rw [hp]⟩

/-- All that CALL can do (R124). -/
theorem execCall_cases (nnn : Addr12) :
    (s.stack.length < 16 ∧
        execCall nnn s = completeFinal (({ s with stack := s.pc :: s.stack } : State).setPc (zextAddr nnn))) ∨
      (16 ≤ s.stack.length ∧ execCall nnn s = fatal (.call nnn) s { cause := .stackOverflow, addr := none }) := by
  unfold execCall
  rcases State.push_cases s s.pc with ⟨h, hp⟩ | ⟨h, hp⟩
  · exact .inl ⟨h, by rw [hp]⟩
  · exact .inr ⟨h, by rw [hp]⟩

/-- All that a block of writes at I can meet: it passes, its start is in the font, or it runs past memory (R55, R225). -/
theorem checkWrite_block {n : Nat} (hn : n ≠ 0) :
    (0x050 ≤ s.index.toNat ∧ s.index.toNat + n ≤ 0x1000 ∧ firstFailure checkWrite (dataAddrs s n) = none) ∨
      (s.index.toNat < 0x050 ∧
        firstFailure checkWrite (dataAddrs s n) = some { cause := .fontWrite, addr := some s.index.toNat }) ∨
      (0x1000 < s.index.toNat + n ∧
        firstFailure checkWrite (dataAddrs s n) = some { cause := .memBounds, addr := some (max s.index.toNat 0x1000) }) := by
  rcases Nat.lt_or_ge s.index.toNat 0x050 with h | h
  · exact .inr (.inl ⟨h, firstFailure_checkWrite_font hn h⟩)
  · rcases Nat.lt_or_ge 0x1000 (s.index.toNat + n) with h' | h'
    · exact .inr (.inr ⟨h', firstFailure_checkWrite_bounds hn h h'⟩)
    · exact .inl ⟨h, h', (firstFailure_checkWrite_none hn).2 ⟨h, h'⟩⟩

/-- All that a block of reads at I can meet: it passes, or it runs past memory (R54, R225). -/
theorem checkRead_block (n : Nat) :
    ((n = 0 ∨ s.index.toNat + n ≤ 0x1000) ∧ firstFailure checkRead (dataAddrs s n) = none) ∨
      (n ≠ 0 ∧ 0x1000 < s.index.toNat + n ∧
        firstFailure checkRead (dataAddrs s n) = some { cause := .memBounds, addr := some (max s.index.toNat 0x1000) }) := by
  by_cases h : n = 0 ∨ s.index.toNat + n ≤ 0x1000
  · exact .inl ⟨h, firstFailure_checkRead_none.2 h⟩
  · exact .inr ⟨by omega, by omega, firstFailure_checkRead_some (by omega) (by omega)⟩

/-- All that FX33 can do (R163). -/
theorem execLdBcd_cases (x : Reg) :
    (0x050 ≤ s.index.toNat ∧ s.index.toNat + 3 ≤ 0x1000 ∧
        execLdBcd x s = complete (s.pokeList s.index.toNat (bcdDigits (s.reg x)))) ∨
      (s.index.toNat < 0x050 ∧
        execLdBcd x s = fatal (.ldBcd x) s { cause := .fontWrite, addr := some s.index.toNat }) ∨
      (0x1000 < s.index.toNat + 3 ∧
        execLdBcd x s = fatal (.ldBcd x) s { cause := .memBounds, addr := some (max s.index.toNat 0x1000) }) := by
  unfold execLdBcd
  rcases checkWrite_block s (n := 3) (by omega) with ⟨h1, h2, h⟩ | ⟨h1, h⟩ | ⟨h1, h⟩ <;> rw [h]
  · exact .inl ⟨h1, h2, rfl⟩
  · exact .inr (.inl ⟨h1, rfl⟩)
  · exact .inr (.inr ⟨h1, rfl⟩)

/-- All that FX55 can do (R164). -/
theorem execLdMemVx_cases (x : Reg) :
    (0x050 ≤ s.index.toNat ∧ s.index.toNat + (x.val + 1) ≤ 0x1000 ∧
        execLdMemVx x s = complete ((s.storeRegs x).setIndex (indexAfterBlock s x))) ∨
      (s.index.toNat < 0x050 ∧
        execLdMemVx x s = fatal (.ldMemVx x) s { cause := .fontWrite, addr := some s.index.toNat }) ∨
      (0x1000 < s.index.toNat + (x.val + 1) ∧
        execLdMemVx x s = fatal (.ldMemVx x) s { cause := .memBounds, addr := some (max s.index.toNat 0x1000) }) := by
  unfold execLdMemVx
  rcases checkWrite_block s (n := x.val + 1) (by omega) with ⟨h1, h2, h⟩ | ⟨h1, h⟩ | ⟨h1, h⟩ <;> rw [h]
  · exact .inl ⟨h1, h2, rfl⟩
  · exact .inr (.inl ⟨h1, rfl⟩)
  · exact .inr (.inr ⟨h1, rfl⟩)

/-- All that FX65 can do (R165). -/
theorem execLdVxMem_cases (x : Reg) :
    (s.index.toNat + (x.val + 1) ≤ 0x1000 ∧
        execLdVxMem x s = complete ((s.loadRegs x).setIndex (indexAfterBlock s x))) ∨
      (0x1000 < s.index.toNat + (x.val + 1) ∧
        execLdVxMem x s = fatal (.ldVxMem x) s { cause := .memBounds, addr := some (max s.index.toNat 0x1000) }) := by
  unfold execLdVxMem
  rcases checkRead_block s (x.val + 1) with ⟨h1, h⟩ | ⟨-, h1, h⟩ <;> rw [h]
  · exact .inl ⟨by omega, rfl⟩
  · exact .inr ⟨h1, rfl⟩

/-- What DRW's loop leaves (R182). -/
def drawnBy (x y : Reg) (n : Nibble) : Drawn :=
  drawRows (s.reg x) (s.reg y) 0 (spriteBytes s n) { disp := s.disp, last := none, collided := false }

/-- All that DRW can do (R182). -/
theorem execDrw_cases (x y : Reg) (n : Nibble) :
    ((n = 0 ∨ s.index.toNat + n.toNat ≤ 0x1000) ∧
        execDrw x y n s = complete (({ s with disp := (drawnBy s x y n).disp, dirty := true } : State).setCollision
          (drawnBy s x y n).last (drawnBy s x y n).collided)) ∨
      (n ≠ 0 ∧ 0x1000 < s.index.toNat + n.toNat ∧
        execDrw x y n s = fatal (.drw x y n) s { cause := .memBounds, addr := some (max s.index.toNat 0x1000) }) := by
  unfold execDrw
  have hz : n = 0 ↔ n.toNat = 0 := ⟨fun h => by rw [h]; rfl, fun h => BitVec.eq_of_toNat_eq h⟩
  rcases checkRead_block s n.toNat with ⟨h1, h⟩ | ⟨h0, h1, h⟩ <;> rw [h]
  · exact .inl ⟨h1.imp hz.2 id, rfl⟩
  · exact .inr ⟨fun h => h0 (hz.1 h), h1, rfl⟩

/-! ## The cycle and the step (R100 to R110) -/

/-- All that a cycle can do: a stall, a fetch fault, or the decoded instruction. -/
theorem cycle_cases :
    (s.dt ≠ 0 ∧ cycle s = .next { s with dt := s.dt - 1 }) ∨
      (s.dt = 0 ∧ ∃ f, s.fetch = .error f ∧ cycle s = .next (s.raise none f)) ∨
      (s.dt = 0 ∧ ∃ w, s.fetch = .ok w ∧ cycle s = exec (decodeWord w) s) := by
  unfold cycle
  by_cases h : s.dt = 0
  · rw [if_pos h]
    cases hf : s.fetch with
    | error f => exact .inr (.inl ⟨h, f, rfl, rfl⟩)
    | ok w => exact .inr (.inr ⟨h, w, rfl, rfl⟩)
  · rw [if_neg h]; exact .inl ⟨h, rfl⟩

/-- All that a step can do: the host's action and a cycle, the host's action and a wait, or a halt. -/
theorem step_cases :
    (s.run = .running ∧ step s = cycle s.takeHostInput) ∨
      (∃ x k, s.run = .waitKey x ∧ s.deliveredKey = some k ∧ step s = .next (s.takeHostInput.supplyKey x k)) ∨
      (∃ x, s.run = .waitKey x ∧ s.deliveredKey = none ∧ step s = .next s.takeHostInput) ∨
      (∃ r, s.run = .halted r ∧ step s = .fault (.halted r)) := by
  unfold step
  cases h : s.run with
  | running => exact .inl ⟨rfl, rfl⟩
  | waitKey x =>
    cases hk : s.deliveredKey with
    | none => exact .inr (.inr (.inl ⟨x, rfl, rfl, rfl⟩))
    | some k => exact .inr (.inl ⟨x, k, rfl, rfl, rfl⟩)
  | halted r => exact .inr (.inr (.inr ⟨r, rfl, rfl⟩))

end Sys2Proof.Machine
end

