-- ==== Sys2Proof/Laws/PerInstr.lean ====
section
/-! SUPPORT. Statements made per instruction: the word of an instruction matches the row of the opcode table that bears its mnemonic (rules R82, R86). -/

namespace Sys2Proof.Laws

/-- The instruction's word matches its own row. -/
def EncodingMatchesRow.Statement (i : Instr) : Prop :=
  ∃ r ∈ instructionRows ++ [unmatchedRow], r.mnemonic = i.mnemonic ∧ r.matchesWord (encode i) = true

theorem matches_of_and {w m v : Word} {name : String} (h : w &&& m = v) : (OpcodeRow.mk name m v).matchesWord w = true := by
  unfold OpcodeRow.matchesWord; rw [h]; exact beq_self_eq_true v

theorem EncodingMatchesRow.cls : Statement (.cls) :=
  ⟨⟨"CLS", 0xFFFF, 0x00E0⟩, by decide, rfl, matches_of_and (by decide)⟩
theorem EncodingMatchesRow.ret : Statement (.ret) :=
  ⟨⟨"RET", 0xFFFF, 0x00EE⟩, by decide, rfl, matches_of_and (by decide)⟩
theorem EncodingMatchesRow.jp (nnn : Addr12) : Statement (.jp nnn) :=
  ⟨⟨"JP", 0xF000, 0x1000⟩, by decide, rfl, matches_of_and ((mask_F000 _ 0x1).2 (by unfold encode; simp))⟩
theorem EncodingMatchesRow.call (nnn : Addr12) : Statement (.call nnn) :=
  ⟨⟨"CALL", 0xF000, 0x2000⟩, by decide, rfl, matches_of_and ((mask_F000 _ 0x2).2 (by unfold encode; simp))⟩
theorem EncodingMatchesRow.seImm (x : Reg) (kk : Byte) : Statement (.seImm x kk) :=
  ⟨⟨"SE_IMM", 0xF000, 0x3000⟩, by decide, rfl, matches_of_and ((mask_F000 _ 0x3).2 (by unfold encode; simp))⟩
theorem EncodingMatchesRow.sneImm (x : Reg) (kk : Byte) : Statement (.sneImm x kk) :=
  ⟨⟨"SNE_IMM", 0xF000, 0x4000⟩, by decide, rfl, matches_of_and ((mask_F000 _ 0x4).2 (by unfold encode; simp))⟩
theorem EncodingMatchesRow.seReg (x y : Reg) : Statement (.seReg x y) :=
  ⟨⟨"SE_REG", 0xF00F, 0x5000⟩, by decide, rfl, matches_of_and ((mask_F00F _ 0x5 0x0).2 (by unfold encode; simp))⟩
theorem EncodingMatchesRow.ldImm (x : Reg) (kk : Byte) : Statement (.ldImm x kk) :=
  ⟨⟨"LD_IMM", 0xF000, 0x6000⟩, by decide, rfl, matches_of_and ((mask_F000 _ 0x6).2 (by unfold encode; simp))⟩
theorem EncodingMatchesRow.addImm (x : Reg) (kk : Byte) : Statement (.addImm x kk) :=
  ⟨⟨"ADD_IMM", 0xF000, 0x7000⟩, by decide, rfl, matches_of_and ((mask_F000 _ 0x7).2 (by unfold encode; simp))⟩
theorem EncodingMatchesRow.ldReg (x y : Reg) : Statement (.ldReg x y) :=
  ⟨⟨"LD_REG", 0xF00F, 0x8000⟩, by decide, rfl, matches_of_and ((mask_F00F _ 0x8 0x0).2 (by unfold encode; simp))⟩
theorem EncodingMatchesRow.or (x y : Reg) : Statement (.or x y) :=
  ⟨⟨"OR", 0xF00F, 0x8001⟩, by decide, rfl, matches_of_and ((mask_F00F _ 0x8 0x1).2 (by unfold encode; simp))⟩
theorem EncodingMatchesRow.and (x y : Reg) : Statement (.and x y) :=
  ⟨⟨"AND", 0xF00F, 0x8002⟩, by decide, rfl, matches_of_and ((mask_F00F _ 0x8 0x2).2 (by unfold encode; simp))⟩
theorem EncodingMatchesRow.xor (x y : Reg) : Statement (.xor x y) :=
  ⟨⟨"XOR", 0xF00F, 0x8003⟩, by decide, rfl, matches_of_and ((mask_F00F _ 0x8 0x3).2 (by unfold encode; simp))⟩
theorem EncodingMatchesRow.addReg (x y : Reg) : Statement (.addReg x y) :=
  ⟨⟨"ADD_REG", 0xF00F, 0x8004⟩, by decide, rfl, matches_of_and ((mask_F00F _ 0x8 0x4).2 (by unfold encode; simp))⟩
theorem EncodingMatchesRow.sub (x y : Reg) : Statement (.sub x y) :=
  ⟨⟨"SUB", 0xF00F, 0x8005⟩, by decide, rfl, matches_of_and ((mask_F00F _ 0x8 0x5).2 (by unfold encode; simp))⟩
theorem EncodingMatchesRow.shr (x y : Reg) : Statement (.shr x y) :=
  ⟨⟨"SHR", 0xF00F, 0x8006⟩, by decide, rfl, matches_of_and ((mask_F00F _ 0x8 0x6).2 (by unfold encode; simp))⟩
theorem EncodingMatchesRow.subn (x y : Reg) : Statement (.subn x y) :=
  ⟨⟨"SUBN", 0xF00F, 0x8007⟩, by decide, rfl, matches_of_and ((mask_F00F _ 0x8 0x7).2 (by unfold encode; simp))⟩
theorem EncodingMatchesRow.shl (x y : Reg) : Statement (.shl x y) :=
  ⟨⟨"SHL", 0xF00F, 0x800E⟩, by decide, rfl, matches_of_and ((mask_F00F _ 0x8 0xE).2 (by unfold encode; simp))⟩
theorem EncodingMatchesRow.sneReg (x y : Reg) : Statement (.sneReg x y) :=
  ⟨⟨"SNE_REG", 0xF00F, 0x9000⟩, by decide, rfl, matches_of_and ((mask_F00F _ 0x9 0x0).2 (by unfold encode; simp))⟩
theorem EncodingMatchesRow.ldI (nnn : Addr12) : Statement (.ldI nnn) :=
  ⟨⟨"LD_I", 0xF000, 0xA000⟩, by decide, rfl, matches_of_and ((mask_F000 _ 0xA).2 (by unfold encode; simp))⟩
theorem EncodingMatchesRow.jpV0 (nnn : Addr12) : Statement (.jpV0 nnn) :=
  ⟨⟨"JP_V0", 0xF000, 0xB000⟩, by decide, rfl, matches_of_and ((mask_F000 _ 0xB).2 (by unfold encode; simp))⟩
theorem EncodingMatchesRow.rnd (x : Reg) (kk : Byte) : Statement (.rnd x kk) :=
  ⟨⟨"RND", 0xF000, 0xC000⟩, by decide, rfl, matches_of_and ((mask_F000 _ 0xC).2 (by unfold encode; simp))⟩
theorem EncodingMatchesRow.drw (x y : Reg) (n : Nibble) : Statement (.drw x y n) :=
  ⟨⟨"DRW", 0xF000, 0xD000⟩, by decide, rfl, matches_of_and ((mask_F000 _ 0xD).2 (by unfold encode; simp))⟩
theorem EncodingMatchesRow.skp (x : Reg) : Statement (.skp x) :=
  ⟨⟨"SKP", 0xF0FF, 0xE09E⟩, by decide, rfl, matches_of_and ((mask_F0FF _ 0xE 0x9 0xE).2 (by unfold encode; simp))⟩
theorem EncodingMatchesRow.sknp (x : Reg) : Statement (.sknp x) :=
  ⟨⟨"SKNP", 0xF0FF, 0xE0A1⟩, by decide, rfl, matches_of_and ((mask_F0FF _ 0xE 0xA 0x1).2 (by unfold encode; simp))⟩
theorem EncodingMatchesRow.ldVxDt (x : Reg) : Statement (.ldVxDt x) :=
  ⟨⟨"LD_VX_DT", 0xF0FF, 0xF007⟩, by decide, rfl, matches_of_and ((mask_F0FF _ 0xF 0x0 0x7).2 (by unfold encode; simp))⟩
theorem EncodingMatchesRow.ldVxK (x : Reg) : Statement (.ldVxK x) :=
  ⟨⟨"LD_VX_K", 0xF0FF, 0xF00A⟩, by decide, rfl, matches_of_and ((mask_F0FF _ 0xF 0x0 0xA).2 (by unfold encode; simp))⟩
theorem EncodingMatchesRow.ldDtVx (x : Reg) : Statement (.ldDtVx x) :=
  ⟨⟨"LD_DT_VX", 0xF0FF, 0xF015⟩, by decide, rfl, matches_of_and ((mask_F0FF _ 0xF 0x1 0x5).2 (by unfold encode; simp))⟩
theorem EncodingMatchesRow.ldStVx (x : Reg) : Statement (.ldStVx x) :=
  ⟨⟨"LD_ST_VX", 0xF0FF, 0xF018⟩, by decide, rfl, matches_of_and ((mask_F0FF _ 0xF 0x1 0x8).2 (by unfold encode; simp))⟩
theorem EncodingMatchesRow.addI (x : Reg) : Statement (.addI x) :=
  ⟨⟨"ADD_I", 0xF0FF, 0xF01E⟩, by decide, rfl, matches_of_and ((mask_F0FF _ 0xF 0x1 0xE).2 (by unfold encode; simp))⟩
theorem EncodingMatchesRow.ldF (x : Reg) : Statement (.ldF x) :=
  ⟨⟨"LD_F", 0xF0FF, 0xF029⟩, by decide, rfl, matches_of_and ((mask_F0FF _ 0xF 0x2 0x9).2 (by unfold encode; simp))⟩
theorem EncodingMatchesRow.ldBcd (x : Reg) : Statement (.ldBcd x) :=
  ⟨⟨"LD_BCD", 0xF0FF, 0xF033⟩, by decide, rfl, matches_of_and ((mask_F0FF _ 0xF 0x3 0x3).2 (by unfold encode; simp))⟩
theorem EncodingMatchesRow.ldMemVx (x : Reg) : Statement (.ldMemVx x) :=
  ⟨⟨"LD_MEM_VX", 0xF0FF, 0xF055⟩, by decide, rfl, matches_of_and ((mask_F0FF _ 0xF 0x5 0x5).2 (by unfold encode; simp))⟩
theorem EncodingMatchesRow.ldVxMem (x : Reg) : Statement (.ldVxMem x) :=
  ⟨⟨"LD_VX_MEM", 0xF0FF, 0xF065⟩, by decide, rfl, matches_of_and ((mask_F0FF _ 0xF 0x6 0x5).2 (by unfold encode; simp))⟩
theorem EncodingMatchesRow.nopUnmatched (w : Word) : Statement (.nopUnmatched w) :=
  ⟨unmatchedRow, by simp, rfl, matches_of_and (by unfold encode; simp)⟩

end Sys2Proof.Laws
end

