-- ==== Sys2Proof/Tests/Slice0.lean ====
section
/-! SUPPORT. Tests of the model, and a witness for the hypotheses of each statement. Expected values are those of spec/95_test_vectors.md, or are worked out by hand from the rules a test names; the configuration and start state are those of its Conventions. -/

namespace Sys2Proof.Tests

open Sys2Proof Sys2Proof.Machine

/-! ## Helpers -/

/-- The configuration of the test vectors (95_test_vectors.md, Conventions). -/
def plain : Config :=
  { shiftQuirk := false, loadStoreQuirk := false, collisionMode := .lastPixel, font := Config.defaultFont, ips := ⟨600, by decide⟩ }

/-- The start state of the test vectors, with a host that does nothing. -/
def base : State := { State.reset with cfg := plain, inputs := [] }

/-- Both quirks on. -/
def quirky (s : State) : State := { s with cfg := { plain with shiftQuirk := true, loadStoreQuirk := true } }

/-- COLLISION_MODE = ANY_PIXEL. -/
def anyPixel (s : State) : State := { s with cfg := { plain with collisionMode := .anyPixel } }

/-- The host delivers a key and does nothing else. -/
def deliver (k : Key) : HostInput := { HostInput.idle with deliverKey := some k }

/-- One step over a word placed at pc. -/
def runs (w : Nat) (s : State) : Result := step (s.withFetchWord 16 w)

/-- The answer is a next state with a property. -/
def answers (o : Result) (p : State → Bool) : Bool :=
  match o with
  | .next t => p t
  | .fault _ => false
  | .refused _ => false

/-! ## Well-formedness -/

/-- An instruction's own word may not stand under NOP_UNMATCHED (R88); this is the one check of `wellFormed`. -/
theorem test_wellFormed_refuses_matched_word : (Instr.nopUnmatched 0x6005).wellFormed = false := by decide

/-- A word with an unlisted sub-opcode may (R85, R88). -/
theorem test_wellFormed_accepts_unmatched_word : (Instr.nopUnmatched 0x8008).wellFormed = true := by decide

/-! ## Decoding: words written out bit by bit from the formats of R82 and the tables of R84 and R85 -/

/-- Format FIXED, family 0. -/
theorem test_decode_family_0 :
    decodeWord 0b0000000011100000 = .cls ∧ decodeWord 0b0000000011101110 = .ret := by decide

/-- Format NNN, families 1, 2, A, B: op, then nnn = 0xABC. -/
theorem test_decode_families_1_2_A_B :
    decodeWord 0b0001101010111100 = .jp 0xABC ∧ decodeWord 0b0010101010111100 = .call 0xABC ∧
    decodeWord 0b1010101010111100 = .ldI 0xABC ∧ decodeWord 0b1011101010111100 = .jpV0 0xABC := by decide

/-- Format XKK, families 3, 4, 6, 7, C: op, x = 0xB, kk = 0x5C. -/
theorem test_decode_families_3_4_6_7_C :
    decodeWord 0b0011101101011100 = .seImm 0xB 0x5C ∧ decodeWord 0b0100101101011100 = .sneImm 0xB 0x5C ∧
    decodeWord 0b0110101101011100 = .ldImm 0xB 0x5C ∧ decodeWord 0b0111101101011100 = .addImm 0xB 0x5C ∧
    decodeWord 0b1100101101011100 = .rnd 0xB 0x5C := by decide

/-- Format XY, families 5 and 9: op, x = 0xB, y = 0x4, fixed 0000. -/
theorem test_decode_families_5_9 :
    decodeWord 0b0101101101000000 = .seReg 0xB 4 ∧ decodeWord 0b1001101101000000 = .sneReg 0xB 4 ∧
    decodeWord 0b0101101101000001 = .nopUnmatched 0x5B41 := by decide

/-- Format XY, family 8: op, x = 0xB, y = 0x4, n selects. -/
theorem test_decode_family_8 :
    decodeWord 0b1000101101000000 = .ldReg 0xB 4 ∧ decodeWord 0b1000101101000001 = .or 0xB 4 ∧
    decodeWord 0b1000101101000010 = .and 0xB 4 ∧ decodeWord 0b1000101101000011 = .xor 0xB 4 ∧
    decodeWord 0b1000101101000100 = .addReg 0xB 4 ∧ decodeWord 0b1000101101000101 = .sub 0xB 4 ∧
    decodeWord 0b1000101101000110 = .shr 0xB 4 ∧ decodeWord 0b1000101101000111 = .subn 0xB 4 ∧
    decodeWord 0b1000101101001110 = .shl 0xB 4 ∧ decodeWord 0b1000101101001000 = .nopUnmatched 0x8B48 := by decide

/-- Format XYN, family D: op, x = 0xB, y = 0x4, n = 0x9. -/
theorem test_decode_family_D : decodeWord 0b1101101101001001 = .drw 0xB 4 9 := by decide

/-- Format X, family E: op, x = 0xB, low byte 1001 1110 or 1010 0001. -/
theorem test_decode_family_E :
    decodeWord 0b1110101110011110 = .skp 0xB ∧ decodeWord 0b1110101110100001 = .sknp 0xB ∧
    decodeWord 0b1110101110011111 = .nopUnmatched 0xEB9F := by decide

/-- Format X, family F: op, x = 0xB, the low byte selects. -/
theorem test_decode_family_F :
    decodeWord 0b1111101100000111 = .ldVxDt 0xB ∧ decodeWord 0b1111101100001010 = .ldVxK 0xB ∧
    decodeWord 0b1111101100010101 = .ldDtVx 0xB ∧ decodeWord 0b1111101100011000 = .ldStVx 0xB ∧
    decodeWord 0b1111101100011110 = .addI 0xB ∧ decodeWord 0b1111101100101001 = .ldF 0xB ∧
    decodeWord 0b1111101100110011 = .ldBcd 0xB ∧ decodeWord 0b1111101101010101 = .ldMemVx 0xB ∧
    decodeWord 0b1111101101100101 = .ldVxMem 0xB := by decide

/-- The bytes of a word lie high byte first (R53, R80), and a lone byte is refused by name. -/
theorem test_decode_byte_order :
    decode [0x60, 0x05, 0x70] = .ok (.ldImm 0 5, [0x70]) ∧ decode [0x60] = .error .truncated := ⟨rfl, rfl⟩

/-- The table numbers bit 0 as the least significant bit of the word; a row of 16 bits is read whole. -/
theorem test_decodeTableWord : decodeTableWord 16 0x6005 = some (.ldImm 0 5) := by decide

/-! ## One step each -/

/-- CYC2: DT = 2, ST = 3: the word does not run, ST does not tick. -/
theorem test_cyc2_stall_takes_one_from_dt : answers (step { base.withFetchWord 16 0x6005 with dt := 2, st := 3 }) (fun t => t.pc == 0x200 && t.dt == 1 && t.st == 3 && t.reg 0 == 0) = true := by decide

/-- FLT1: fetch at 0x100. -/
theorem test_flt1_low_fetch : answers (step (base.setPc 0x100)) (fun t => t.run == .halted ⟨.lowFetch, some 0x100, none, some 0x100⟩ && t.pc == 0x100) = true := by decide

/-- FLT3: fetch at 0xFFF. -/
theorem test_flt3_second_byte_out_of_range : answers (step (base.setPc 0xFFF)) (fun t => t.run == .halted ⟨.memBounds, some 0xFFF, none, some 0x1000⟩) = true := by decide

/-- FLT6: pc = 0x1000 with DT = 2 does not fault yet. -/
theorem test_flt6_stall_before_the_fetch_fault : answers (step { base with pc := 0x1000, dt := 2 }) (fun t => t.run == .running && t.dt == 1) = true := by decide

/-- DSP2: a lit pixel goes out, dirty is set. -/
theorem test_cls : answers (runs 0x00E0 { base with disp := Grid.clear.setPixel 5 5 true }) (fun t => t.disp.pixel 5 5 == false && t.dirty && t.pc == 0x202) = true := by decide

/-- CTL1: back to the instruction after the CALL at 0x202. -/
theorem test_ret : answers (runs 0x00EE { base with pc := 0x300, stack := [0x202] }) (fun t => t.pc == 0x204 && t.stack == []) = true := by decide

/-- CTL3: empty stack. -/
theorem test_ret_underflow : answers (runs 0x00EE base) (fun t => t.run == .halted ⟨.stackUnderflow, some 0x200, some 0x00EE, none⟩ && t.pc == 0x200) = true := by decide

/-- CTL4. -/
theorem test_jp : answers (runs 0x1234 base) (fun t => t.pc == 0x234) = true := by decide

/-- CTL5: the idle self-jump. -/
theorem test_jp_self : answers (runs 0x1200 base) (fun t => t.pc == 0x200 && t.run == .running) = true := by decide

/-- CTL6: pushes its own address. -/
theorem test_call : answers (runs 0x2300 (base.setPc 0x202)) (fun t => t.pc == 0x300 && t.stack == [0x202]) = true := by decide

/-- CTL7: the 17th CALL. -/
theorem test_call_overflow : answers (runs 0x2300 { base with stack := List.replicate 16 0x200 }) (fun t => t.run == .halted ⟨.stackOverflow, some 0x200, some 0x2300, none⟩ && t.stack.length == 16) = true := by decide

/-- CTL9: taken. -/
theorem test_se_imm : answers (runs 0x3310 (base.setReg 3 0x10)) (fun t => t.pc == 0x204) = true := by decide

/-- CTL10: not taken. -/
theorem test_se_imm_not : answers (runs 0x3310 (base.setReg 3 0x11)) (fun t => t.pc == 0x202) = true := by decide

/-- CTL11: taken. -/
theorem test_sne_imm : answers (runs 0x4310 (base.setReg 3 0x11)) (fun t => t.pc == 0x204) = true := by decide

/-- CTL12: not taken. -/
theorem test_sne_imm_not : answers (runs 0x4310 (base.setReg 3 0x10)) (fun t => t.pc == 0x202) = true := by decide

/-- CTL13: taken. -/
theorem test_se_reg : answers (runs 0x5120 ((base.setReg 1 7).setReg 2 7)) (fun t => t.pc == 0x204) = true := by decide

/-- CTL14: not taken. -/
theorem test_se_reg_not : answers (runs 0x5120 ((base.setReg 1 7).setReg 2 8)) (fun t => t.pc == 0x202) = true := by decide

/-- CTL16: taken. -/
theorem test_sne_reg : answers (runs 0x9120 ((base.setReg 1 7).setReg 2 8)) (fun t => t.pc == 0x204) = true := by decide

/-- CTL17: x = y never skips. -/
theorem test_sne_reg_not : answers (runs 0x9110 base) (fun t => t.pc == 0x202) = true := by decide

/-- CTL19. -/
theorem test_jp_v0 : answers (runs 0xB300 (base.setReg 0 4)) (fun t => t.pc == 0x304) = true := by decide

/-- CTL21: the sum is not reduced to 12 bits. -/
theorem test_jp_v0_past_memory : answers (runs 0xBFFF (base.setReg 0 0xFF)) (fun t => t.pc == 0x10FE) = true := by decide

/-- CYC3: a SYS-like word ticks ST and moves pc. -/
theorem test_nop_unmatched : answers (runs 0x0123 { base with st := 1 }) (fun t => t.pc == 0x202 && t.st == 0 && t.run == .running) = true := by decide

/-- CYC5: 5XY1 does not skip. -/
theorem test_nop_unmatched_5xy1 : answers (runs 0x5121 ((base.setReg 1 1).setReg 2 1)) (fun t => t.pc == 0x202) = true := by decide

/-- ALU1, with VF = 1 as a witness that no flag is written. -/
theorem test_ld_imm : answers (runs 0x6AFF (base.setReg VF 1)) (fun t => t.reg 0xA == 0xFF && t.reg VF == 1) = true := by decide

/-- ALU2. -/
theorem test_add_imm : answers (runs 0x720A (base.setReg 2 0xFA)) (fun t => t.reg 2 == 4 && t.reg VF == 1) = true := by decide

/-- ALU5: x = F holds the flag, not the sum. -/
theorem test_add_imm_vf : answers (runs 0x7F0A (base.setReg VF 5)) (fun t => t.reg VF == 0) = true := by decide

/-- ALU8. -/
theorem test_ld_reg : answers (runs 0x8230 (base.setReg 3 0x42)) (fun t => t.reg 2 == 0x42) = true := by decide

/-- ALU9: VF is left alone. -/
theorem test_or : answers (runs 0x8011 (((base.setReg 0 0x0F).setReg 1 0xF0).setReg VF 7)) (fun t => t.reg 0 == 0xFF && t.reg VF == 7) = true := by decide

/-- ALU10. -/
theorem test_and : answers (runs 0x8012 ((base.setReg 0 0x3C).setReg 1 0x0F)) (fun t => t.reg 0 == 0x0C) = true := by decide

/-- ALU11. -/
theorem test_xor : answers (runs 0x8013 ((base.setReg 0 0x3C).setReg 1 0x0F)) (fun t => t.reg 0 == 0x33) = true := by decide

/-- ALU14: no carry, VF written 0. -/
theorem test_add_reg : answers (runs 0x8014 (((base.setReg 0 0x7F).setReg 1 1).setReg VF 1)) (fun t => t.reg 0 == 0x80 && t.reg VF == 0) = true := by decide

/-- ALU16: x = F holds the carry, not the sum 0x01; with V1 = 1 the sum is 0. -/
theorem test_add_reg_vf : answers (runs 0x8F14 ((base.setReg VF 0xFF).setReg 1 1)) (fun t => t.reg VF == 1) = true := by decide

/-- ALU18: borrow. -/
theorem test_sub : answers (runs 0x8015 (((base.setReg 0 3).setReg 1 0xA).setReg VF 1)) (fun t => t.reg 0 == 0xF9 && t.reg VF == 0) = true := by decide

/-- ALU19: equal operands, no borrow. -/
theorem test_sub_equal : answers (runs 0x8015 ((base.setReg 0 5).setReg 1 5)) (fun t => t.reg 0 == 0 && t.reg VF == 1) = true := by decide

/-- ALU22: no quirk, the source is Vy. -/
theorem test_shr : answers (runs 0x8126 ((base.setReg 1 0xFF).setReg 2 0x81)) (fun t => t.reg 1 == 0x40 && t.reg VF == 1) = true := by decide

/-- ALU24: quirk and x = F, the flag overwrites the result. -/
theorem test_shr_quirk_vf : answers (runs 0x8F06 (quirky ((base.setReg VF 2).setReg 0 3))) (fun t => t.reg VF == 0) = true := by decide

/-- ALU25. -/
theorem test_subn : answers (runs 0x8017 ((base.setReg 0 3).setReg 1 0xA)) (fun t => t.reg 0 == 7 && t.reg VF == 1) = true := by decide

/-- ALU26. -/
theorem test_subn_borrow : answers (runs 0x8017 (((base.setReg 0 0xA).setReg 1 3).setReg VF 1)) (fun t => t.reg 0 == 0xF9 && t.reg VF == 0) = true := by decide

/-- ALU28: no quirk. -/
theorem test_shl : answers (runs 0x812E (base.setReg 2 0x81)) (fun t => t.reg 1 == 2 && t.reg VF == 1) = true := by decide

/-- ALU29: quirk, the source is Vx. -/
theorem test_shl_quirk : answers (runs 0x812E (quirky ((base.setReg 1 0x40).setReg VF 1))) (fun t => t.reg 1 == 0x80 && t.reg VF == 0) = true := by decide

/-- MEM1. -/
theorem test_ld_i : answers (runs 0xA300 base) (fun t => t.index == 0x300) = true := by decide

/-- MEM4: no 12-bit wrap and no flag. -/
theorem test_add_i : answers (runs 0xF21E (((base.setReg 2 1).setReg VF 9).setIndex 0xFFF)) (fun t => t.index == 0x1000 && t.reg VF == 9) = true := by decide

/-- MEM5. -/
theorem test_add_i_wraps : answers (runs 0xF21E ((base.setReg 2 1).setIndex 0xFFFF)) (fun t => t.index == 0) = true := by decide

/-- MEM6. -/
theorem test_ld_f : answers (runs 0xF029 (base.setReg 0 0xA)) (fun t => t.index == 0x32) = true := by decide

/-- MEM8: 5 times 255, no mask. -/
theorem test_ld_f_full_byte : answers (runs 0xF029 (base.setReg 0 0xFF)) (fun t => t.index == 0x4FB) = true := by decide

/-- MEM9. -/
theorem test_ld_bcd : answers (runs 0xF533 ((base.setReg 5 0x9D).setIndex 0x300)) (fun t => t.byteAt 0x300 == 1 && t.byteAt 0x301 == 5 && t.byteAt 0x302 == 7 && t.index == 0x300) = true := by decide

/-- MEM14: precise, 0xFFE is not written. -/
theorem test_ld_bcd_bounds : answers (runs 0xF533 ((base.setReg 5 0xFF).setIndex 0xFFE)) (fun t => t.run == .halted ⟨.memBounds, some 0x200, some 0xF533, some 0x1000⟩ && t.byteAt 0xFFE == 0) = true := by decide

/-- MEM15. -/
theorem test_ld_mem_vx : answers (runs 0xF155 (((base.setReg 0 1).setReg 1 2).setIndex 0x300)) (fun t => t.byteAt 0x300 == 1 && t.byteAt 0x301 == 2 && t.byteAt 0x302 == 0 && t.index == 0x302) = true := by decide

/-- MEM19. -/
theorem test_ld_mem_vx_font : answers (runs 0xF155 (base.setIndex 0x4F)) (fun t => t.run == .halted ⟨.fontWrite, some 0x200, some 0xF155, some 0x4F⟩ && t.byteAt 0x4F == 0x80) = true := by decide

/-- MEM23: glyph 0 of the default FONT. -/
theorem test_ld_vx_mem : answers (runs 0xF465 base) (fun t => t.reg 0 == 0xF0 && t.reg 1 == 0x90 && t.reg 4 == 0xF0 && t.index == 5) = true := by decide

/-- MEM22: quirk, I is unchanged. -/
theorem test_ld_vx_mem_quirk : answers (runs 0xF265 (quirky (((base.poke 0x300 1).poke 0x302 7).setIndex 0x300))) (fun t => t.reg 0 == 1 && t.reg 2 == 7 && t.index == 0x300) = true := by decide

/-- DSP7: a sprite at (63, 31) wraps in both directions. -/
theorem test_drw_wraps : answers (runs 0xD012 ((((base.setReg 0 0x3F).setReg 1 0x1F).poke 0x300 0xFF |>.poke 0x301 0x80).setIndex 0x300)) (fun t => t.disp.pixel 31 63 && t.disp.pixel 31 6 && !t.disp.pixel 31 7 && t.disp.pixel 0 63 && !t.disp.pixel 0 0 && t.dirty) = true := by decide

/-- DSP14: LAST_PIXEL, a 0 bit over a lit pixel sets VF. -/
theorem test_drw_last_pixel : answers (runs 0xD011 { base.setIndex 0x300 with disp := Grid.clear.setPixel 0 7 true }) (fun t => t.reg VF == 1 && t.disp.pixel 0 7) = true := by decide

/-- KEY4: key 0 is a key. -/
theorem test_skp : answers (runs 0xE09E { base with key := some 0 }) (fun t => t.pc == 0x204) = true := by decide

/-- KEY3: Vx above 15 equals no key. -/
theorem test_skp_full_byte : answers (runs 0xE39E { base.setReg 3 0x15 with key := some 5 }) (fun t => t.pc == 0x202) = true := by decide

/-- KEY5: no key. -/
theorem test_sknp : answers (runs 0xE3A1 (base.setReg 3 5)) (fun t => t.pc == 0x204) = true := by decide

/-- KEY6. -/
theorem test_sknp_not : answers (runs 0xE3A1 { base.setReg 3 5 with key := some 5 }) (fun t => t.pc == 0x202) = true := by decide

/-- KEY8: FX07 reads 0, over an old V1. -/
theorem test_ld_vx_dt : answers (runs 0xF107 (base.setReg 1 9)) (fun t => t.reg 1 == 0 && t.pc == 0x202) = true := by decide

/-- KEY16: the issue step. -/
theorem test_ld_vx_k : answers (runs 0xF50A { base with pc := 0x210, st := 2 }) (fun t => t.run == .waitKey 5 && t.pc == 0x210 && t.st == 2) = true := by decide

/-- KEY17: key 0xC is delivered. -/
theorem test_ld_vx_k_completion : answers (step { base with pc := 0x210, st := 2, run := .waitKey 5, inputs := [deliver 0xC] }) (fun t => t.reg 5 == 0xC && t.run == .running && t.st == 1 && t.pc == 0x212) = true := by decide

/-- KEY10. -/
theorem test_ld_dt_vx : answers (runs 0xF015 ((base.setReg 0 3).setPc 0x202)) (fun t => t.dt == 3 && t.pc == 0x204) = true := by decide

/-- KEY15: the old ST is overwritten, then ticked. -/
theorem test_ld_st_vx : answers (runs 0xF018 { base.setReg 0 5 with st := 9 }) (fun t => t.st == 4) = true := by decide

/-- KEY14. -/
theorem test_ld_st_vx_zero : answers (runs 0xF118 base) (fun t => t.st == 0) = true := by decide

/-- ALU33: with kk = 0 the result is 0 whatever the draw. -/
theorem test_rnd_mask_zero : answers (exec (.rnd 3 0) (base.setReg 3 9)) (fun t => t.reg 3 == 0) = true := by
  simp [answers, exec, execRnd, complete, State.reg, State.tail, State.drawRandom, State.setReg]

/-- R152: the next execution draws another byte; no flag. -/
theorem test_rnd_draws : answers (runs 0xC30F base) (fun t => t.draws == 1 && t.reg VF == 0 && t.pc == 0x202) = true := by decide

/-! ## Witnesses: each statement's hypotheses met together, at the boundaries of each clause -/

/-- `answers` is the existence of a next state with the property. -/
theorem answers_iff {o : Result} {p : State → Bool} : answers o p = true ↔ ∃ t, o = .next t ∧ p t = true := by
  unfold answers; cases o <;> simp

/-- The state with pc at an address and the two bytes of a word there. -/
def holding (pc : Word) (hi lo : Byte) : State := { base with pc := pc, mem := [(pc.toNat, hi), (pc.toNat + 1, lo)] }

/-- The run state is RUNNING. -/
def isRunning (t : State) : Bool := t.run == .running

/-- The run state is HALTED. -/
def isHalted (t : State) : Bool :=
  match t.run with
  | .running => false
  | .waitKey _ => false
  | .halted _ => true

/-- Any state. -/
def anyState (_ : State) : Bool := true

/-- Each clause of SubOpcodesAreExactlyListed is some word's. -/
theorem witness_SubOpcodesAreExactlyListed :
    decodeWord 0x00EF = .nopUnmatched 0x00EF ∧ decodeWord 0x5001 = .nopUnmatched 0x5001 ∧ decodeWord 0x900F = .nopUnmatched 0x900F ∧
    decodeWord 0x800D = .nopUnmatched 0x800D ∧ decodeWord 0xE09F = .nopUnmatched 0xE09F ∧ decodeWord 0xF066 = .nopUnmatched 0xF066 := by decide

theorem witness_DecodingFollowsTheOpcodeTable :
    (⟨"SHL", 0xF00F, 0x800E⟩ ∈ instructionRows) ∧ (OpcodeRow.mk "SHL" 0xF00F 0x800E).matchesWord 0x8FFE = true ∧
    unmatchedWord 0xFFFF = true := by decide

theorem witness_DecodeOfEncode : (Instr.drw 15 0 15).wellFormed = true ∧ (Instr.nopUnmatched 0).wellFormed = true := by decide

/-- At both ends of program memory. -/
theorem witness_StepRunsTheDecodedInstruction_low :
    (holding 0x200 0x60 5).run = .running ∧ (holding 0x200 0x60 5).dt = 0 ∧ 0x200 ≤ (holding 0x200 0x60 5).pc.toNat ∧
    (holding 0x200 0x60 5).pc.toNat + 1 < 0x1000 ∧
    decodeWord (wordOfBytes ((holding 0x200 0x60 5).byteAt 0x200) ((holding 0x200 0x60 5).byteAt 0x201)) = .ldImm 0 5 := by decide

theorem witness_StepRunsTheDecodedInstruction_high :
    (holding 0xFFE 0x60 5).run = .running ∧ (holding 0xFFE 0x60 5).dt = 0 ∧ 0x200 ≤ (holding 0xFFE 0x60 5).pc.toNat ∧
    (holding 0xFFE 0x60 5).pc.toNat + 1 < 0x1000 ∧
    decodeWord (wordOfBytes ((holding 0xFFE 0x60 5).byteAt 0xFFE) ((holding 0xFFE 0x60 5).byteAt 0xFFF)) = .ldImm 0 5 := by decide

/-- The host sets KEY to a key and clears dirty; sets it to NONE; leaves both; and does nothing. -/
theorem witness_KeyChangesByTheHostOnly :
    (∃ (s : State) (h : HostInput) (rest : List HostInput),
      s.inputs = h :: rest ∧ h.writeKey = some (some 5) ∧ h.clearDirty = true ∧ s.dirty = true) ∧
    (∃ (s : State) (h : HostInput) (rest : List HostInput),
      s.inputs = h :: rest ∧ h.writeKey = some none ∧ s.key = some 5 ∧ h.clearDirty = false) ∧
    (∃ (s : State) (h : HostInput) (rest : List HostInput), s.inputs = h :: rest ∧ h.writeKey = none ∧ s.key = some 5) ∧
    base.inputs = [] ∧ answers (step (holding 0x200 0x60 5)) anyState = true :=
  ⟨⟨{ base with inputs := [⟨some (some 5), true, none⟩], dirty := true }, _, _, rfl, rfl, rfl, rfl⟩,
    ⟨{ base with inputs := [⟨some none, false, none⟩], key := some 5 }, _, _, rfl, rfl, rfl, rfl⟩,
    ⟨{ base with inputs := [HostInput.idle], key := some 5 }, _, _, rfl, rfl, rfl⟩, rfl, by decide⟩

/-- The smallest and the largest delay, stopped half way and at its end. -/
theorem witness_DelayOfNStallsNCycles :
    ({ base with dt := 255 } : State).run = .running ∧ ({ base with dt := 255 } : State).dt ≠ 0 ∧
    100 ≤ ({ base with dt := 255 } : State).dt.toNat ∧ 255 ≤ ({ base with dt := 255 } : State).dt.toNat ∧
    ({ base with dt := 1 } : State).dt ≠ 0 := by decide

theorem witness_DelayStallDecrementsDtOnly :
    ({ base with dt := 1 } : State).run = .running ∧ ({ base with dt := 1 } : State).dt ≠ 0 ∧ ({ base with dt := 255 } : State).dt ≠ 0 := by decide

/-- Both clauses of FetchFaults at their boundaries; they do not meet. -/
theorem witness_FetchFaults :
    base.run = .running ∧ base.dt = 0 ∧ (base.setPc 0x1FF).pc.toNat < 0x200 ∧ 0x1000 ≤ (base.setPc 0xFFF).pc.toNat + 1 ∧
    0x1000 ≤ (base.setPc 0xFFFF).pc.toNat := by decide

theorem witness_HaltedHasNoStep :
    ({ base with run := .halted ⟨.stackUnderflow, some 0x200, some 0x00EE, none⟩ } : State).run =
      .halted ⟨.stackUnderflow, some 0x200, some 0x00EE, none⟩ := by decide

/-- A running and a waiting core are not halted. -/
theorem witness_StepAnswersUnlessHalted : base.notHalted ∧ ({ base with run := .waitKey 3 } : State).notHalted := by
  constructor <;> intro r h <;> exact absurd h (by simp [base, State.reset])

/-- An instruction that completes, one that waits and one that faults. -/
theorem witness_NetProgramCounter :
    base.run = .running ∧ answers (exec (.jp 0xFFF) base) isRunning = true ∧
    answers (exec (.ldVxK 15) base) (fun t => t.run != .running) = true ∧ answers (exec .ret base) isHalted = true := by decide

/-- FX18, another instruction, a stall cycle, a wait that ends and one that goes on; FX0A's issue and a fatal condition, by exec and by step; a fetch fault. -/
theorem witness_SoundTimerTicksAfterEachInstruction :
    base.run = .running ∧ answers (exec (.ldStVx 1) (base.setReg 1 255)) isRunning = true ∧
    answers (exec (.jp 0) { base with st := 1 }) isRunning = true ∧ answers (step { base with dt := 1, st := 1 }) anyState = true ∧
    answers (step { base with run := .waitKey 3, inputs := [deliver 0] }) isRunning = true ∧
    answers (step { base with run := .waitKey 3 }) (fun t => t.run != .running) = true ∧
    answers (exec (.ldVxK 3) { base with st := 1 }) (fun t => t.run != .running) = true ∧
    answers (exec .ret { base with st := 1 }) (fun t => t.run != .running) = true ∧
    answers (step { holding 0x200 0xF3 0x0A with st := 1 }) (fun t => t.run != .running) = true ∧
    answers (step { base with pc := 0x1FF, st := 1 }) (fun t => t.run != .running) = true := by decide

/-- FX15, a stall, a wait; steps with DT = 0: an FX15 fetched, another word fetched, a fetch fault. -/
theorem witness_DelayTimerChangesOnlyByStallOrFX15 :
    answers (exec (.ldDtVx 1) (base.setReg 1 255)) anyState = true ∧ answers (step { base with dt := 1 }) anyState = true ∧
    answers (step { base with run := .waitKey 3 }) anyState = true ∧ base.dt = 0 ∧
    answers (step ((holding 0x200 0xF3 0x15).setReg 3 255)) (fun t => t.dt == 255) = true ∧
    answers (step (holding 0x200 0x60 5)) anyState = true ∧ answers (step (base.setPc 0x1FF)) anyState = true := by decide

/-- The stack with one place left, and full. -/
theorem witness_CallPushesItsOwnAddress :
    ({ base with stack := List.replicate 15 0x202 } : State).stack.length < 16 ∧
    16 ≤ ({ base with stack := List.replicate 16 0x202 } : State).stack.length := by decide

theorem witness_ReturnPopsAndAddsTwo :
    ({ base with stack := [0xFFFF] } : State).stack = 0xFFFF :: [] ∧ base.stack = [] := by decide

/-- A caller with 15 return addresses; a later state elsewhere, with the stack the CALL left. -/
theorem witness_ReturnUndoesCall :
    ({ base with stack := List.replicate 15 0x202 } : State).stack.length < 16 ∧
    answers (exec (.call 0x300) { base with stack := List.replicate 15 0x202 })
      (fun t => { base with stack := 0x200 :: List.replicate 15 0x202 : State }.stack == t.stack && t.pc != base.pc) = true := by decide

/-- A self-jump at the lowest address and at the highest. -/
theorem witness_SelfJumpIsIdle :
    (holding 0x200 0x12 0).run = .running ∧ (holding 0x200 0x12 0).dt = 0 ∧
    decodeWord (wordOfBytes ((holding 0x200 0x12 0).byteAt 0x200) ((holding 0x200 0x12 0).byteAt 0x201)) = .jp 0x200 ∧
    (0x200 : Addr12).toNat = (holding 0x200 0x12 0).pc.toNat ∧ (holding 0xFFE 0x1F 0xFE).pc.toNat + 1 < 0x1000 ∧
    decodeWord (wordOfBytes ((holding 0xFFE 0x1F 0xFE).byteAt 0xFFE) ((holding 0xFFE 0x1F 0xFE).byteAt 0xFFF)) = .jp 0xFFE := by decide

/-- Both values of the shift quirk. -/
theorem witness_ShiftsByOneSetShiftedOutBit :
    base.reg 2 = (if base.cfg.shiftQuirk = true then base.reg 1 else base.reg 2) ∧
    (quirky base).reg 1 = (if (quirky base).cfg.shiftQuirk = true then (quirky base).reg 1 else (quirky base).reg 2) := by decide

/-- BCD just above the font and at the end of memory. -/
theorem witness_BcdStoresThreeDigits :
    base.mem.wf = true ∧ 0x050 ≤ (base.setIndex 0x050).index.toNat ∧ (base.setIndex 0xFFD).index.toNat + 2 < 0x1000 := by decide

/-- Blocks of 16 and of 1 at both ends of the writable memory. -/
theorem witness_BlockStoreWritesV0ToVx :
    base.mem.wf = true ∧ 0x050 ≤ (base.setIndex 0x050).index.toNat ∧ (base.setIndex 0xFF0).index.toNat + (15 : Reg).val < 0x1000 ∧
    (base.setIndex 0xFFF).index.toNat + (0 : Reg).val < 0x1000 := by decide

/-- A load from the font, and of the last 16 bytes. -/
theorem witness_BlockLoadReadsV0ToVx :
    base.index.toNat + (15 : Reg).val < 0x1000 ∧ (base.setIndex 0xFF0).index.toNat + (15 : Reg).val < 0x1000 := by decide

/-- Each clause of BlockAccessFaults at the first value it takes. -/
theorem witness_BlockAccessFaults :
    (base.setIndex 0x04F).index.toNat < 0x050 ∧ 0x1000 ≤ (base.setIndex 0xFFE).index.toNat + 2 ∧
    0x1000 ≤ (base.setIndex 0xFF1).index.toNat + (15 : Reg).val ∧ (15 : Nibble) ≠ 0 ∧
    0x1000 < (base.setIndex 0xFF2).index.toNat + (15 : Nibble).toNat ∧
    answers (exec (.drw 0 0 0) (base.setIndex 0xFFFF)) isRunning = true := by decide

/-- A block of two at the end of memory; a later state with that memory and base, whose V0 is another value. -/
theorem witness_BlockStoreThenLoadRestores :
    base.mem.wf = true ∧ 0x050 ≤ (base.setIndex 0xFFE).index.toNat ∧ (base.setIndex 0xFFE).index.toNat + (1 : Reg).val < 0x1000 ∧
    answers (exec (.ldMemVx 1) ((base.setReg 0 7).setIndex 0xFFE)) (fun t => t.mem == [(0xFFE, 7)]) = true ∧
    ({ base with mem := [(0xFFE, 7)], index := 0xFFE } : State).reg 0 = 0 := by decide

/-- 6005 stored at 0x300 by FX55, then fetched there. -/
theorem witness_FetchSeesStoredBytes :
    base.mem.wf = true ∧
    answers (exec (.ldMemVx 1) (((base.setReg 0 0x60).setReg 1 5).setIndex 0x300))
      (fun t => t.run == .running && t.mem == (holding 0x300 0x60 5).mem) = true ∧
    (holding 0x300 0x60 5).run = .running ∧ (holding 0x300 0x60 5).dt = 0 ∧ (1 : Reg).val = (0 : Reg).val + 1 ∧ (1 : Reg) ≤ 1 ∧
    (holding 0x300 0x60 5).pc.toNat = 0x300 + (0 : Reg).val ∧ 0x200 ≤ (holding 0x300 0x60 5).pc.toNat := by decide

/-- No row anywhere; the last fifteen bytes of memory; both collision modes. -/
theorem witness_DrawXorsTheSprite :
    ((0 : Nibble) = 0 ∨ (base.setIndex 0xFFFF).index.toNat + (0 : Nibble).toNat ≤ 0x1000) ∧
    ((15 : Nibble) = 0 ∨ (base.setIndex 0xFF1).index.toNat + (15 : Nibble).toNat ≤ 0x1000) := by decide

theorem witness_CollisionFlagByMode :
    ((15 : Nibble) = 0 ∨ (base.setIndex 0xFF1).index.toNat + (15 : Nibble).toNat ≤ 0x1000) ∧ base.cfg.collisionMode = .lastPixel ∧
    (anyPixel base).cfg.collisionMode = .anyPixel := by decide

theorem witness_DirtySetByClearAndDrawOnly :
    base.run = .running ∧ answers (exec .cls base) isRunning = true ∧ answers (exec (.drw 0 0 0) base) isRunning = true ∧
    answers (exec (.jp 0) { base with dirty := true }) anyState = true := by decide

/-- An executing FX07, and one that stalls. -/
theorem witness_DelayTimerReadsAsZero :
    (holding 0x200 0xF1 7).run = .running ∧ 0x200 ≤ (holding 0x200 0xF1 7).pc.toNat ∧ (holding 0x200 0xF1 7).pc.toNat + 1 < 0x1000 ∧
    decodeWord (wordOfBytes ((holding 0x200 0xF1 7).byteAt 0x200) ((holding 0x200 0xF1 7).byteAt 0x201)) = .ldVxDt 1 ∧
    answers (step (holding 0x200 0xF1 7)) anyState = true ∧ answers (step { holding 0x200 0xF1 7 with dt := 5 }) anyState = true := by decide

/-- A wait with key 0 delivered, with another action of the host, and with no action listed. -/
theorem witness_KeyDeliveryCompletesTheWait :
    (∃ (s : State) (h : HostInput) (rest : List HostInput), s.run = .waitKey 15 ∧ s.inputs = h :: rest ∧ h.deliverKey = some 0) ∧
    (∃ s : State, s.run = .waitKey 15 ∧ s.inputs = [⟨some (some 3), true, none⟩] ∧ ∀ h ∈ s.inputs.head?, h.deliverKey = none) ∧
    ∃ s : State, s.run = .waitKey 15 ∧ s.inputs = [] ∧ ∀ h ∈ s.inputs.head?, h.deliverKey = none :=
  ⟨⟨{ base with run := .waitKey 15, inputs := [deliver 0] }, _, _, rfl, rfl, rfl⟩,
    ⟨{ base with run := .waitKey 15, inputs := [⟨some (some 3), true, none⟩] }, rfl, rfl, by simp⟩,
    ⟨{ base with run := .waitKey 15 }, rfl, rfl, by simp [base]⟩⟩

/-- An instruction that raises, a step that executes it, and a fetch fault. -/
theorem witness_FatalConditionsArePrecise :
    base.run = .running ∧ answers (exec .ret base) isHalted = true ∧ answers (step (holding 0x200 0 0xEE)) isHalted = true ∧
    answers (step (base.setPc 0x1FF)) isHalted = true := by decide

/-- Every instruction that can raise, in a state in which it does. -/
theorem witness_CausesByInstruction :
    base.run = .running ∧ answers (exec .ret base) isHalted = true ∧
    answers (exec (.call 0x300) { base with stack := List.replicate 16 0 }) isHalted = true ∧
    answers (exec (.ldBcd 0) base) isHalted = true ∧ answers (exec (.ldMemVx 0) (base.setIndex 0x4F)) isHalted = true ∧
    answers (exec (.ldVxMem 0) (base.setIndex 0x1000)) isHalted = true ∧
    answers (exec (.drw 0 0 1) (base.setIndex 0x1000)) isHalted = true := by decide

theorem witness_RegisterFrame :
    answers (exec (.ldVxMem 14) base) anyState = true ∧ writesReg (.ldVxMem 14) 15 = false ∧ writesReg (.addReg 0 1) 15 = true := by decide

/-- A store, with an address just below and one just above it; an instruction that stores nothing. -/
theorem witness_MemoryFrame :
    base.mem.wf = true ∧ answers (exec (.ldBcd 0) (base.setIndex 0x300)) anyState = true ∧ answers (exec (.jp 0) base) anyState = true ∧
    0x2FF < (base.setIndex 0x300).index.toNat ∧ (base.setIndex 0x300).index.toNat + storedBytes (.ldBcd 0) ≤ 0x303 := by decide

theorem witness_SpecialStateFrame :
    answers (exec (.ldVxDt 0) base) anyState = true ∧ (Instr.ldVxDt 0).mnemonic ∉ ["LD_I", "ADD_I", "LD_F", "LD_MEM_VX", "LD_VX_MEM"] ∧
    (Instr.ldVxDt 0).mnemonic ∉ ["CALL", "RET"] ∧ (Instr.ldVxDt 0).mnemonic ≠ "RND" ∧ (Instr.ldVxDt 0).mnemonic ≠ "NOP_UNMATCHED" := by decide

theorem witness_VFIsNoHiddenOperand :
    namesReg (.addReg 0 1) VF = false ∧ answers (exec (.addReg 0 1) base) anyState = true ∧ namesReg (.ldMemVx 14) VF = false := by decide

/-- A configuration that differs in every parameter SHR is not named by. -/
theorem witness_ConfigurationActsOnlyWhereNamed :
    answers (step (holding 0x200 0x60 5)) anyState = true ∧ answers (exec (.shr 0 1) base) anyState = true ∧
    ({ plain with loadStoreQuirk := true, collisionMode := .anyPixel, ips := ⟨1, by decide⟩ } : Config).shiftQuirk = base.cfg.shiftQuirk ∧
    ({ plain with loadStoreQuirk := true, collisionMode := .anyPixel, ips := ⟨1, by decide⟩ } : Config).loadStoreQuirk ≠ base.cfg.loadStoreQuirk := by decide

theorem witness_StepKeepsTheInvariant : base.Inv ∧ answers (step base) anyState = true :=
  ⟨⟨by decide, by decide, by unfold State.fontIntact; decide⟩, by decide⟩

/-- The largest ROM that fits, and the smallest that does not. -/
theorem witness_StartLoadsFontAndRom : (List.replicate 3584 (0 : Byte)).length ≤ 3584 := List.length_replicate.le

theorem witness_OversizedRomIsRefused : 3584 < (List.replicate 3585 (0 : Byte)).length := by rw [List.length_replicate]; omega

end Sys2Proof.Tests
end

