-- ==== Sys2Proof/Proofs/ConfigurationFrame.lean ====
section
/-! O53: running an instruction and then replacing the configuration is replacing it first and then running, as long as the parameters the instruction's rules name stay the same (R36). Replacing a configuration by itself turns this into "no step writes the configuration". -/

namespace Sys2Proof.Machine

/-- The state under another configuration. -/
def State.withConfig (s : State) (c : Config) : State := { s with cfg := c }

/-- The answer with its next state, if it has one, under another configuration. -/
def Result.withConfig (c : Config) : Result → Result
  | .next s => .next (s.withConfig c)
  | .fault r => .fault r
  | .refused r => .refused r

variable (s : State) (c : Config)

@[simp] theorem State.withConfig_cfg : (s.withConfig c).cfg = c := rfl
@[simp] theorem State.withConfig_pc : (s.withConfig c).pc = s.pc := rfl
@[simp] theorem State.withConfig_stack : (s.withConfig c).stack = s.stack := rfl

@[simp] theorem Result.withConfig_next : Result.withConfig c (.next s) = .next (s.withConfig c) := rfl

/-! ## The shared operations read no parameter -/

@[simp] theorem dataAddrs_withConfig (n : Nat) : dataAddrs (s.withConfig c) n = dataAddrs s n := rfl

theorem State.pop_withConfig : (s.withConfig c).pop = s.pop.map (Prod.map id (State.withConfig · c)) := by
  unfold State.pop
  rw [State.withConfig_stack]
  cases s.stack <;> rfl

theorem State.push_withConfig (a : Word) : (s.withConfig c).push a = (s.push a).map (State.withConfig · c) := by
  unfold State.push
  rw [State.withConfig_stack]
  split <;> rfl

theorem State.pokeList_withConfig (a : Nat) (bs : List Byte) :
    (s.withConfig c).pokeList a bs = (s.pokeList a bs).withConfig c := by
  induction bs generalizing s a with
  | nil => rfl
  | cons b bs ih => exact ih (s.poke a b) (a + 1)

theorem State.storeRegs_withConfig (x : Reg) : (s.withConfig c).storeRegs x = (s.storeRegs x).withConfig c :=
  State.pokeList_withConfig s c _ _

theorem State.loadRegList_withConfig (base : Nat) (rs : List Reg) :
    (s.withConfig c).loadRegList base rs = (s.loadRegList base rs).withConfig c := by
  induction rs generalizing s with
  | nil => rfl
  | cons r rs ih => exact ih (s.setReg r (s.mem.read (base + r.val)))

theorem State.loadRegs_withConfig (x : Reg) : (s.withConfig c).loadRegs x = (s.loadRegs x).withConfig c :=
  State.loadRegList_withConfig s c _ _

/-! ## The three operations that read one -/

variable {s c}

/-- A shift's source reads SHIFT_QUIRK alone (R149, R151). -/
theorem shiftSource_withConfig (h : c.shiftQuirk = s.cfg.shiftQuirk) (x y : Reg) :
    shiftSource (s.withConfig c) x y = shiftSource s x y := by
  unfold shiftSource; rw [State.withConfig_cfg, h]; rfl

/-- I after a block reads LOAD_STORE_QUIRK alone (R164, R165). -/
theorem indexAfterBlock_withConfig (h : c.loadStoreQuirk = s.cfg.loadStoreQuirk) (x : Reg) :
    indexAfterBlock (s.withConfig c) x = indexAfterBlock s x := by
  unfold indexAfterBlock; rw [State.withConfig_cfg, h]; rfl

/-- VF after DRW reads COLLISION_MODE alone (R183, R184). -/
theorem State.setCollision_withConfig (h : c.collisionMode = s.cfg.collisionMode) (last : Option Bool) (collided : Bool) :
    (s.withConfig c).setCollision last collided = (s.setCollision last collided).withConfig c := by
  unfold State.setCollision
  rw [State.withConfig_cfg, h]
  cases s.cfg.collisionMode with
  | lastPixel => cases last <;> rfl
  | anyPixel => rfl

/-! ## The meanings that branch or read a parameter -/

/-- RET (R122). -/
theorem execRet_withConfig : execRet (s.withConfig c) = Result.withConfig c (execRet s) := by
  unfold execRet
  rw [State.pop_withConfig]
  cases s.pop <;> rfl

/-- CALL (R124). -/
theorem execCall_withConfig (nnn : Addr12) : execCall nnn (s.withConfig c) = Result.withConfig c (execCall nnn s) := by
  unfold execCall
  rw [State.withConfig_pc, State.push_withConfig]
  cases s.push s.pc <;> rfl

/-- 8XY6 reads SHIFT_QUIRK (R149). -/
theorem execShr_withConfig (h : c.shiftQuirk = s.cfg.shiftQuirk) (x y : Reg) :
    execShr x y (s.withConfig c) = Result.withConfig c (execShr x y s) := by
  unfold execShr
  rw [shiftSource_withConfig h]
  rfl

/-- 8XYE reads SHIFT_QUIRK (R151). -/
theorem execShl_withConfig (h : c.shiftQuirk = s.cfg.shiftQuirk) (x y : Reg) :
    execShl x y (s.withConfig c) = Result.withConfig c (execShl x y s) := by
  unfold execShl
  rw [shiftSource_withConfig h]
  rfl

/-- DRW reads COLLISION_MODE (R182 to R184). -/
theorem execDrw_withConfig (h : c.collisionMode = s.cfg.collisionMode) (x y : Reg) (n : Nibble) :
    execDrw x y n (s.withConfig c) = Result.withConfig c (execDrw x y n s) := by
  unfold execDrw
  rw [dataAddrs_withConfig]
  cases firstFailure checkRead (dataAddrs s n.toNat) with
  | some f => rfl
  | none => exact congrArg complete (State.setCollision_withConfig (s := { s with disp := _, dirty := true }) h _ _)

/-- FX33 (R163). -/
theorem execLdBcd_withConfig (x : Reg) : execLdBcd x (s.withConfig c) = Result.withConfig c (execLdBcd x s) := by
  unfold execLdBcd
  rw [dataAddrs_withConfig]
  cases firstFailure checkWrite (dataAddrs s 3) with
  | some f => rfl
  | none => exact congrArg complete (State.pokeList_withConfig s c _ _)

/-- FX55 reads LOAD_STORE_QUIRK (R164). -/
theorem execLdMemVx_withConfig (h : c.loadStoreQuirk = s.cfg.loadStoreQuirk) (x : Reg) :
    execLdMemVx x (s.withConfig c) = Result.withConfig c (execLdMemVx x s) := by
  unfold execLdMemVx
  rw [dataAddrs_withConfig, indexAfterBlock_withConfig h, State.storeRegs_withConfig]
  cases firstFailure checkWrite (dataAddrs s (x.val + 1)) <;> rfl

/-- FX65 reads LOAD_STORE_QUIRK (R165). -/
theorem execLdVxMem_withConfig (h : c.loadStoreQuirk = s.cfg.loadStoreQuirk) (x : Reg) :
    execLdVxMem x (s.withConfig c) = Result.withConfig c (execLdVxMem x s) := by
  unfold execLdVxMem
  rw [dataAddrs_withConfig, indexAfterBlock_withConfig h, State.loadRegs_withConfig]
  cases firstFailure checkRead (dataAddrs s (x.val + 1)) <;> rfl

/-! ## Every instruction -/

/-- Each parameter acts only through the instructions whose rules name it: the other meanings compute through the configuration untouched (R36). -/
theorem exec_withConfig (i : Instr)
    (hshift : i.mnemonic = "SHR" ∨ i.mnemonic = "SHL" → c.shiftQuirk = s.cfg.shiftQuirk)
    (hblock : i.mnemonic = "LD_MEM_VX" ∨ i.mnemonic = "LD_VX_MEM" → c.loadStoreQuirk = s.cfg.loadStoreQuirk)
    (hdraw : i.mnemonic = "DRW" → c.collisionMode = s.cfg.collisionMode) :
    exec i (s.withConfig c) = Result.withConfig c (exec i s) := by
  cases i with
  | shr x y => exact execShr_withConfig (hshift (.inl rfl)) x y
  | shl x y => exact execShl_withConfig (hshift (.inr rfl)) x y
  | ldMemVx x => exact execLdMemVx_withConfig (hblock (.inl rfl)) x
  | ldVxMem x => exact execLdVxMem_withConfig (hblock (.inr rfl)) x
  | drw x y n => exact execDrw_withConfig (hdraw rfl) x y n
  | ret => exact execRet_withConfig
  | call nnn => exact execCall_withConfig nnn
  | ldBcd x => exact execLdBcd_withConfig x
  | _ => rfl

/-! ## No step writes the configuration -/

variable {t : State}

/-- Under its own configuration a state is itself, so the commutation above says that an instruction leaves the configuration. -/
theorem exec_keeps_cfg {i : Instr} (h : exec i s = .next t) : t.cfg = s.cfg := by
  have hself : exec i s = Result.withConfig s.cfg (exec i s) :=
    exec_withConfig (c := s.cfg) i (fun _ => rfl) (fun _ => rfl) (fun _ => rfl)
  rw [h, Result.withConfig_next] at hself
  have ht : t = t.withConfig s.cfg := Host.Outcome.next.inj hself
  calc t.cfg = (t.withConfig s.cfg).cfg := congrArg State.cfg ht
    _ = s.cfg := State.withConfig_cfg t s.cfg

theorem cycle_keeps_cfg (h : cycle s = .next t) : t.cfg = s.cfg := by
  rcases cycle_cases s with ⟨-, e⟩ | ⟨-, f, -, e⟩ | ⟨-, w, -, e⟩ <;> rw [e] at h
  · cases h; rfl
  · cases h; rfl
  · exact exec_keeps_cfg h

theorem step_keeps_cfg (h : step s = .next t) : t.cfg = s.cfg := by
  rcases step_cases s with ⟨-, e⟩ | ⟨x, k, -, -, e⟩ | ⟨x, -, -, e⟩ | ⟨r, -, e⟩ <;> rw [e] at h
  · exact (cycle_keeps_cfg h).trans (State.takeHostInput_cfg s)
  · cases h; rfl
  · cases h; rfl
  · cases h

/-- Settles O53: the commutation of `exec` with a change of configuration, and its case of no change for the step. -/
theorem configurationActsOnlyWhereNamed : Obligations.ConfigurationActsOnlyWhereNamed := by
  unfold Obligations.ConfigurationActsOnlyWhereNamed
  refine ⟨fun s t => step_keeps_cfg, fun i s t c hshift hblock hdraw h => ?_⟩
  have hcomm := exec_withConfig i hshift hblock hdraw
  rwa [h] at hcomm

end Sys2Proof.Machine
end

