-- ==== Sys2Proof/Proofs/UnmatchedNoOp.lean ====
section
/-! O22: the tail of a completed instruction in the spec's integer arithmetic, and the unmatched word, which adds nothing to it but the optional counter (R105, R106, R112). -/

namespace Sys2Proof.Machine

/-- The model's tick is the spec's: a difference of natural numbers stops at 0 (R105). -/
theorem soundTick_eq_ticked (st : Byte) : soundTick st = ticked st := by
  apply BitVec.eq_of_toNat_eq
  have hlt : st.toNat - 1 < 2 ^ 8 := by omega
  rw [soundTick_toNat, ticked, BitVec.toNat_ofNat, Nat.mod_eq_of_lt hlt]

/-- What an instruction that leaves `final` false answers (R105, R106). -/
theorem complete_eq (s : State) : complete s = .next { s with pc := s.pc + 2, st := ticked s.st } := by
  rw [← soundTick_eq_ticked]
  rfl

/-- The next state of an unmatched word, with the counter it advances (R112, R233). -/
theorem exec_nopUnmatched (w : Word) (s : State) : exec (.nopUnmatched w) s =
    .next { s with pc := s.pc + 2, st := ticked s.st, unmatchedCount := s.unmatchedCount + 1 } :=
  complete_eq { s with unmatchedCount := s.unmatchedCount + 1 }

/-- Settles O22: putting the counter back leaves the tail alone. -/
theorem unmatchedWordIsNoOp : Obligations.UnmatchedWordIsNoOp := by
  unfold Obligations.UnmatchedWordIsNoOp
  exact fun w s => ⟨_, exec_nopUnmatched w s, rfl⟩

end Sys2Proof.Machine
end

