-- ==== Sys2Proof/Proofs/DecodeRows.lean ====
section
/-! A decoded word encodes back to itself, so a row of the opcode table is settled by its forward reading and the layout of its instruction (R81 to R88). -/

namespace Sys2Proof

/-! ## A word from its selectors and operand fields -/

variable {w : Word} {op n : Nibble} {kk : Byte}

theorem wordNNN_nnnField (h : opField w = op) : wordNNN op (nnnField w) = w := h ▸ wordNNN_fields w

theorem wordXKK_xField_kkField (h : opField w = op) : wordXKK op (xField w) (kkField w) = w := h ▸ wordXKK_fields w

theorem wordXKK_xField (h : opField w = op) (hk : kkField w = kk) : wordXKK op (xField w) kk = w :=
  hk ▸ wordXKK_xField_kkField h

theorem wordXYN_xField_yField (h : opField w = op) (hn : nField w = n) : wordXYN op (xField w) (yField w) n = w :=
  h ▸ hn ▸ wordXYN_fields w

/-! ## Encoding undoes decoding, family by family (R84, R85, R88) -/

theorem encode_decodeFamily0 (w : Word) : encode (decodeFamily0 w) = w := by
  unfold decodeFamily0
  split_ifs with h h
  · exact h.symm
  · exact h.symm
  · rfl

theorem encode_decodeFamily8 (h : opField w = 8) : encode (decodeFamily8 w) = w := by
  unfold decodeFamily8
  split
  case h_10 => rfl
  all_goals exact wordXYN_xField_yField h (BitVec.eq_of_toNat_eq ‹_›)

theorem encode_decodeFamilyE (h : opField w = 0xE) : encode (decodeFamilyE w) = w := by
  unfold decodeFamilyE
  dsimp only
  iterate 2
    split
    · exact wordXKK_xField h ‹_›
  rfl

theorem encode_decodeFamilyF (h : opField w = 0xF) : encode (decodeFamilyF w) = w := by
  unfold decodeFamilyF
  dsimp only
  iterate 9
    split
    · exact wordXKK_xField h ‹_›
  rfl

/-- The families with op 5 and op 9: only n = 0 selects (R85). -/
theorem encode_ite_nField {i : Reg → Reg → Instr} (hi : ∀ x y, encode (i x y) = wordXYN op x y 0) (h : opField w = op) :
    encode (if nField w = 0 then i (xField w) (yField w) else .nopUnmatched w) = w := by
  split
  · exact (hi _ _).trans (wordXYN_xField_yField h ‹_›)
  · rfl

/-- The word of a decoded word is that word: every selector the decoder tests stands in the layout of the instruction it picks (R82, R88). -/
theorem encode_decodeWord (w : Word) : encode (decodeWord w) = w := by
  have hop {k : Nibble} (h : (opField w).toNat = k.toNat) : opField w = k := BitVec.eq_of_toNat_eq h
  unfold decodeWord
  split
  case h_1 => exact encode_decodeFamily0 w
  case h_6 h => exact encode_ite_nField (fun _ _ => rfl) (hop (k := 5) h)
  case h_9 h => exact encode_decodeFamily8 (hop h)
  case h_10 h => exact encode_ite_nField (fun _ _ => rfl) (hop (k := 9) h)
  case h_14 h => exact wordXYN_xField_yField (hop h) rfl
  case h_15 h => exact encode_decodeFamilyE (hop h)
  case h_16 =>
    have hlt := (opField w).isLt
    simp only [imp_false] at *
    have h : (opField w).toNat = 15 := by omega
    exact encode_decodeFamilyF (hop h)
  case h_2 h | h_3 h | h_11 h | h_12 h => exact wordNNN_nnnField (hop h)
  case h_4 h | h_5 h | h_7 h | h_8 h | h_13 h => exact wordXKK_xField_kkField (hop h)

namespace Machine

/-! ## Rows of the opcode table -/

/-- A row needs only its forward reading and the word of its instruction: a word that decodes to the instruction is that instruction's word, and so matches. -/
theorem rowDecodes_of_encode {mask value : Word} {build : Word → Instr}
    (hdec : ∀ w, w &&& mask = value → decodeWord w = build w) (henc : ∀ w, encode (build w) &&& mask = value) :
    RowDecodes mask value build := by
  refine fun w => ⟨hdec w, fun h => ?_⟩
  have hw : encode (build w) = w := h ▸ encode_decodeWord w
  rw [← hw]
  exact henc w

/-- A row whose mask keeps op and whose instruction has the layout of format NNN (R82). -/
theorem rowDecodes_NNN {build : Addr12 → Instr} (hdec : ∀ w, opField w = op → decodeWord w = build (nnnField w))
    (henc : ∀ nnn, encode (build nnn) = wordNNN op nnn) :
    RowDecodes 0xF000 (wordXYN op 0 0 0) (fun w => build (nnnField w)) :=
  rowDecodes_of_encode (fun w h => hdec w ((mask_F000 w op).1 h))
    (fun w => (mask_F000 _ op).2 (by rw [henc, opField_wordNNN]))

end Machine
end Sys2Proof
end

