-- ==== Sys2Proof/Proofs/Jumps.lean ====
section
/-! O16: the rows of the two jumps, and the tail of an instruction that has set `final`, which adds nothing to pc (R106, R123, R129). -/

namespace Sys2Proof.Machine

/-! ## The rows -/

theorem decodeWord_jp {w : Word} (h : opField w = 0x1) : decodeWord w = .jp (nnnField w) := by
  unfold decodeWord; rw [h]; rfl

theorem decodeWord_jpV0 {w : Word} (h : opField w = 0xB) : decodeWord w = .jpV0 (nnnField w) := by
  unfold decodeWord; rw [h]; rfl

theorem rowDecodes_jp : RowDecodes 0xF000 0x1000 (fun w => .jp (nnnField w)) :=
  rowDecodes_NNN (op := 0x1) (fun _ => decodeWord_jp) (fun _ => rfl)

theorem rowDecodes_jpV0 : RowDecodes 0xF000 0xB000 (fun w => .jpV0 (nnnField w)) :=
  rowDecodes_NNN (op := 0xB) (fun _ => decodeWord_jpV0) (fun _ => rfl)

/-! ## The tail of an instruction that has set `final` -/

/-- What an instruction that has set `final` answers: ST ticks and pc stays where the instruction put it (R105, R106). -/
theorem completeFinal_eq (s : State) : completeFinal s = .next { s with st := ticked s.st } := by
  rw [← soundTick_eq_ticked]
  rfl

theorem exec_jp (nnn : Addr12) (s : State) :
    exec (.jp nnn) s = .next { s with pc := zextAddr nnn, st := ticked s.st } :=
  completeFinal_eq (s.setPc _)

theorem exec_jpV0 (nnn : Addr12) (s : State) :
    exec (.jpV0 nnn) s = .next { s with pc := zextAddr nnn + zextByte (s.reg 0), st := ticked s.st } :=
  completeFinal_eq (s.setPc _)

/-! ## The targets as numbers -/

theorem zextAddr_eq_ofNat (nnn : Addr12) : zextAddr nnn = BitVec.ofNat 16 nnn.toNat := by
  apply BitVec.eq_of_toNat_eq
  have := nnn.isLt
  rw [toNat_zextAddr, BitVec.toNat_ofNat]
  omega

/-- nnn + a byte stays far below 2^16, so JP V0's sum is the integer sum (R129). -/
theorem toNat_zextAddr_add_zextByte (nnn : Addr12) (b : Byte) :
    (zextAddr nnn + zextByte b).toNat = nnn.toNat + b.toNat := by
  have := nnn.isLt
  have := b.isLt
  rw [BitVec.toNat_add, toNat_zextAddr, toNat_zextByte]
  omega

/-- Settles O16: both jumps are final, and JP V0's sum does not wrap. -/
theorem jumpsAreFinal : Obligations.JumpsAreFinal := by
  unfold Obligations.JumpsAreFinal
  refine ⟨rowDecodes_jp, rowDecodes_jpV0, fun nnn s => ⟨?_, _, exec_jpV0 nnn s, ?_, rfl⟩⟩
  · rw [exec_jp, zextAddr_eq_ofNat]
  · exact toNat_zextAddr_add_zextByte nnn (s.reg 0)

end Sys2Proof.Machine
end

