-- ==== Sys2Proof/Proofs/RegisterRows.lean ====
section
/-! The rows of formats XKK and XY, and the instructions that write one general register and complete (R82, R85, R140). -/

namespace Sys2Proof.Machine

variable {op n : Nibble}

/-! ## Rows -/

/-- A row whose mask keeps op and whose instruction has the layout of format XKK (R82). -/
theorem rowDecodes_XKK {build : Reg → Byte → Instr}
    (hdec : ∀ w, opField w = op → decodeWord w = build (xField w) (kkField w))
    (henc : ∀ x kk, encode (build x kk) = wordXKK op x kk) :
    RowDecodes 0xF000 (wordXYN op 0 0 0) (fun w => build (xField w) (kkField w)) :=
  rowDecodes_of_encode (fun w h => hdec w ((mask_F000 w op).1 h))
    (fun w => (mask_F000 _ op).2 (by rw [henc, opField_wordXKK]))

/-- A row whose mask keeps op and n and whose instruction has the layout of format XY (R82, R85). -/
theorem rowDecodes_XY {build : Reg → Reg → Instr}
    (hdec : ∀ w, opField w = op → nField w = n → decodeWord w = build (xField w) (yField w))
    (henc : ∀ x y, encode (build x y) = wordXYN op x y n) :
    RowDecodes 0xF00F (wordXYN op 0 0 n) (fun w => build (xField w) (yField w)) := by
  refine rowDecodes_of_encode (fun w h => ?_) (fun w => (mask_F00F _ op n).2 ?_)
  · obtain ⟨hop, hn⟩ := (mask_F00F w op n).1 h
    exact hdec w hop hn
  · rw [henc, opField_wordXYN, nField_wordXYN]
    exact ⟨rfl, rfl⟩

theorem decodeWord_of_opField_eight {w : Word} (h : opField w = 0x8) : decodeWord w = decodeFamily8 w := by
  unfold decodeWord; rw [h]; rfl

/-- A row of family 8: the instruction that n selects, whatever the registers are. -/
theorem rowDecodes_family8 {build : Reg → Reg → Instr}
    (hdec : ∀ w, nField w = n → decodeFamily8 w = build (xField w) (yField w))
    (henc : ∀ x y, encode (build x y) = wordXYN 0x8 x y n) :
    RowDecodes 0xF00F (wordXYN 0x8 0 0 n) (fun w => build (xField w) (yField w)) :=
  rowDecodes_XY (fun w hop hn => (decodeWord_of_opField_eight hop).trans (hdec w hn)) henc

/-! ## One register write -/

/-- An instruction whose meaning writes `b` to Vx and completes changes Vx alone, with the tail: no flag (R140). -/
theorem completesWithRegs_of_setReg {i : Instr} {s : State} {x : Reg} {b : Byte}
    (h : exec i s = complete (s.setReg x b)) :
    CompletesWithRegs i s (fun r => if r = x then b else s.reg r) :=
  ⟨_, h.trans (complete_eq _), fun r => State.reg_setReg s x r b, rfl⟩

end Sys2Proof.Machine
end

