-- ==== Sys2Proof/Proofs/LoadsAndLogic.lean ====
section
/-! O26 and O24: the register loads and the bitwise operations, each one write of Vx that sets no flag (R141, R143 to R146). -/

namespace Sys2Proof.Machine

/-! ## The rows -/

theorem rowDecodes_ldImm : RowDecodes 0xF000 0x6000 (fun w => .ldImm (xField w) (kkField w)) :=
  rowDecodes_XKK (op := 0x6) (fun w h => by unfold decodeWord; rw [h]; rfl) (fun _ _ => rfl)

theorem rowDecodes_ldReg : RowDecodes 0xF00F 0x8000 (fun w => .ldReg (xField w) (yField w)) :=
  rowDecodes_family8 (n := 0x0) (fun w h => by unfold decodeFamily8; rw [h]; rfl) (fun _ _ => rfl)

theorem rowDecodes_or : RowDecodes 0xF00F 0x8001 (fun w => .or (xField w) (yField w)) :=
  rowDecodes_family8 (n := 0x1) (fun w h => by unfold decodeFamily8; rw [h]; rfl) (fun _ _ => rfl)

theorem rowDecodes_and : RowDecodes 0xF00F 0x8002 (fun w => .and (xField w) (yField w)) :=
  rowDecodes_family8 (n := 0x2) (fun w h => by unfold decodeFamily8; rw [h]; rfl) (fun _ _ => rfl)

theorem rowDecodes_xor : RowDecodes 0xF00F 0x8003 (fun w => .xor (xField w) (yField w)) :=
  rowDecodes_family8 (n := 0x3) (fun w h => by unfold decodeFamily8; rw [h]; rfl) (fun _ _ => rfl)

/-! ## The statements -/

/-- Settles O26: each result, read as the integer operation on the operands, is what the meaning writes to Vx. -/
theorem bitwiseLogicLeavesVF : Obligations.BitwiseLogicLeavesVF := by
  unfold Obligations.BitwiseLogicLeavesVF
  refine ⟨rowDecodes_or, rowDecodes_and, rowDecodes_xor, fun x y s => ?_⟩
  simp only [← BitVec.toNat_or, ← BitVec.toNat_and, ← BitVec.toNat_xor, BitVec.ofNat_toNat, BitVec.setWidth_eq]
  exact ⟨completesWithRegs_of_setReg rfl, completesWithRegs_of_setReg rfl, completesWithRegs_of_setReg rfl⟩

/-- Settles O24: a load is a single write of Vx. -/
theorem loadsOfImmediateAndRegister : Obligations.LoadsOfImmediateAndRegister := by
  unfold Obligations.LoadsOfImmediateAndRegister
  exact ⟨rowDecodes_ldImm, rowDecodes_ldReg, fun _ _ _ _ =>
    ⟨completesWithRegs_of_setReg rfl, completesWithRegs_of_setReg rfl⟩⟩

end Sys2Proof.Machine
end

