-- ==== Sys2Proof/Proofs/SelectorRows.lean ====
section
/-! The rows of format XKK whose low byte is a selector: families E and F (R82, R88). -/

namespace Sys2Proof.Machine

variable {c d : Nibble} {build : Reg → Instr}

/-- A row whose mask keeps op and kk and whose instruction has the layout of format XKK with that kk, its two digits c and d (R82, R88). -/
theorem rowDecodes_XSelector {op : Nibble}
    (hdec : ∀ w, opField w = op → kkField w = (c ++ d : BitVec (4 + 4)) → decodeWord w = build (xField w))
    (henc : ∀ x, encode (build x) = wordXKK op x (c ++ d : BitVec (4 + 4))) :
    RowDecodes 0xF0FF (wordXYN op 0 (regOfNibble c) d) (fun w => build (xField w)) := by
  refine rowDecodes_of_encode (fun w h => ?_) (fun w => (mask_F0FF _ op c d).2 ?_)
  · obtain ⟨hop, hkk⟩ := (mask_F0FF w op c d).1 h
    exact hdec w hop hkk
  · rw [henc, opField_wordXKK, kkField_wordXKK]
    exact ⟨rfl, rfl⟩

theorem decodeWord_of_opField_fifteen {w : Word} (h : opField w = 0xF) : decodeWord w = decodeFamilyF w := by
  unfold decodeWord; rw [h]; rfl

/-- A row of family F: the instruction that kk selects, whatever the register is. -/
theorem rowDecodes_familyF
    (hdec : ∀ w, kkField w = (c ++ d : BitVec (4 + 4)) → decodeFamilyF w = build (xField w))
    (henc : ∀ x, encode (build x) = wordXKK 0xF x (c ++ d : BitVec (4 + 4))) :
    RowDecodes 0xF0FF (wordXYN 0xF 0 (regOfNibble c) d) (fun w => build (xField w)) :=
  rowDecodes_XSelector (fun w hop hkk => (decodeWord_of_opField_fifteen hop).trans (hdec w hkk)) henc

end Sys2Proof.Machine
end

