-- ==== Sys2Proof/Proofs/IndexLoads.lean ====
section
/-! O30: the two loads of I, each one write of I that sets no flag (R160, R162). -/

namespace Sys2Proof.Machine

/-! ## The rows -/

theorem rowDecodes_ldI : RowDecodes 0xF000 0xA000 (fun w => .ldI (nnnField w)) :=
  rowDecodes_NNN (op := 0xA) (fun w h => by unfold decodeWord; rw [h]; rfl) (fun _ => rfl)

theorem rowDecodes_ldF : RowDecodes 0xF0FF 0xF029 (fun w => .ldF (xField w)) :=
  rowDecodes_familyF (c := 0x2) (d := 0x9) (fun w h => by unfold decodeFamilyF; rw [h]; rfl) (fun _ => rfl)

/-! ## One write of I -/

/-- An instruction whose meaning writes I and completes changes I alone, with the tail. -/
theorem complete_setIndex (s : State) (w : Word) :
    complete (s.setIndex w) = .next { s with index := w, pc := s.pc + 2, st := ticked s.st } :=
  complete_eq (s.setIndex w)

theorem exec_ldI (nnn : Addr12) (s : State) :
    exec (.ldI nnn) s = .next { s with index := zextAddr nnn, pc := s.pc + 2, st := ticked s.st } :=
  complete_setIndex s (zextAddr nnn)

theorem exec_ldF (x : Reg) (s : State) :
    exec (.ldF x) s = .next { s with index := glyphAddr (s.reg x), pc := s.pc + 2, st := ticked s.st } :=
  complete_setIndex s (glyphAddr (s.reg x))

/-- Settles O30: zero-extending nnn keeps its value, and a byte times 5 stays below 2^16. -/
theorem loadsOfIndex : Obligations.LoadsOfIndex := by
  unfold Obligations.LoadsOfIndex
  refine ⟨rowDecodes_ldI, rowDecodes_ldF, fun nnn s => ?_, fun x s => ⟨_, exec_ldF x s, ?_, rfl⟩⟩
  · rw [exec_ldI, zextAddr_eq_ofNat]
  · exact toNat_glyphAddr (s.reg x)

end Sys2Proof.Machine
end

