-- ==== Sys2Proof/Proofs/DisplayWrites.lean ====
section
/-! O41 and O38: CLS and a DRW that completes set dirty, and every other instruction leaves dirty and the display alone (R181, R182, R185). -/

namespace Sys2Proof.Machine

/-! ## CLS -/

/-- A row whose mask keeps the whole word: it selects one instruction, which the instruction's own word names (R82, R84). -/
theorem rowDecodes_fixed {i : Instr} (hdec : decodeWord (encode i) = i) : RowDecodes 0xFFFF (encode i) (fun _ => i) := by
  have hmask (w : Word) : w &&& 0xFFFF = w := BitVec.and_allOnes
  refine rowDecodes_of_encode (fun w h => ?_) (fun _ => hmask (encode i))
  have hw : w = encode i := (hmask w).symm.trans h
  exact (congrArg decodeWord hw).trans hdec

theorem rowDecodes_cls : RowDecodes 0xFFFF 0x00E0 (fun _ => .cls) :=
  rowDecodes_fixed (i := .cls) rfl

theorem exec_cls (s : State) :
    exec .cls s = .next { s with disp := Grid.clear, dirty := true, pc := s.pc + 2, st := ticked s.st } :=
  complete_eq { s with disp := Grid.clear, dirty := true }

/-- Settles O38: every pixel of the cleared grid is unlit. -/
theorem clearDisplay : Obligations.ClearDisplay := by
  unfold Obligations.ClearDisplay
  exact ⟨rowDecodes_cls, fun s => ⟨_, exec_cls s, Grid.pixel_clear, rfl⟩⟩

/-! ## The instructions that set dirty -/

theorem eq_cls_of_mnemonic {i : Instr} (h : i.mnemonic = "CLS") : i = .cls := by
  cases i <;> simp [Instr.mnemonic] at h ⊢

theorem eq_drw_of_mnemonic {i : Instr} (h : i.mnemonic = "DRW") : ∃ x y n, i = .drw x y n := by
  cases i <;> simp [Instr.mnemonic] at h ⊢

variable {s t : State}

theorem dirty_of_exec_cls (h : exec .cls s = .next t) : t.dirty = true := by
  rw [exec_cls] at h
  cases h
  rfl

/-- The draw sets dirty before VF is written, whatever the sprite is; the only other outcome of DRW is a halt (R185). -/
theorem dirty_of_exec_drw {x y : Reg} {n : Nibble} (h : exec (.drw x y n) s = .next t) (hrun : t.run = .running) :
    t.dirty = true := by
  rcases execDrw_cases s x y n with ⟨-, e⟩ | ⟨-, -, e⟩
  · cases e.symm.trans h
    exact State.setCollision_dirty _ _ _
  · cases e.symm.trans h
    cases hrun

/-! ## The instructions that leave dirty and the display alone -/

/-- The next state, if there is one, has the dirty flag and the display of `s`. -/
def Result.KeepsDisplay (s : State) : Result → Prop
  | .next t => t.dirty = s.dirty ∧ t.disp = s.disp
  | .fault _ => True
  | .refused _ => True

variable (s)

/-- A fatal condition changes the run state alone (R107). -/
theorem fatal_keepsDisplay (i : Instr) (f : Fatal) : Result.KeepsDisplay s (fatal i s f) := ⟨rfl, rfl⟩

theorem execRet_keepsDisplay : Result.KeepsDisplay s (execRet s) := by
  rcases execRet_cases s with ⟨a, rest, -, e⟩ | ⟨-, e⟩ <;> rw [e]
  · exact ⟨rfl, rfl⟩
  · exact fatal_keepsDisplay s _ _

theorem execCall_keepsDisplay (nnn : Addr12) : Result.KeepsDisplay s (execCall nnn s) := by
  rcases execCall_cases s nnn with ⟨-, e⟩ | ⟨-, e⟩ <;> rw [e]
  · exact ⟨rfl, rfl⟩
  · exact fatal_keepsDisplay s _ _

theorem execLdBcd_keepsDisplay (x : Reg) : Result.KeepsDisplay s (execLdBcd x s) := by
  rcases execLdBcd_cases s x with ⟨-, -, e⟩ | ⟨-, e⟩ | ⟨-, e⟩ <;> rw [e]
  · exact ⟨State.pokeList_dirty s _ _, State.pokeList_disp s _ _⟩
  all_goals exact fatal_keepsDisplay s _ _

theorem execLdMemVx_keepsDisplay (x : Reg) : Result.KeepsDisplay s (execLdMemVx x s) := by
  rcases execLdMemVx_cases s x with ⟨-, -, e⟩ | ⟨-, e⟩ | ⟨-, e⟩ <;> rw [e]
  · exact ⟨State.storeRegs_dirty s x, State.storeRegs_disp s x⟩
  all_goals exact fatal_keepsDisplay s _ _

theorem execLdVxMem_keepsDisplay (x : Reg) : Result.KeepsDisplay s (execLdVxMem x s) := by
  rcases execLdVxMem_cases s x with ⟨-, e⟩ | ⟨-, e⟩ <;> rw [e]
  · exact ⟨State.loadRegs_dirty s x, State.loadRegs_disp s x⟩
  · exact fatal_keepsDisplay s _ _

/-- The meanings that neither branch nor recurse write neither field: their next states compute to those of `s` (R32, R185). -/
theorem exec_keepsDisplay {i : Instr} (hcls : i.mnemonic ≠ "CLS") (hdrw : i.mnemonic ≠ "DRW") :
    Result.KeepsDisplay s (exec i s) := by
  cases i with
  | cls => exact absurd rfl hcls
  | drw x y n => exact absurd rfl hdrw
  | ret => exact execRet_keepsDisplay s
  | call nnn => exact execCall_keepsDisplay s nnn
  | ldBcd x => exact execLdBcd_keepsDisplay s x
  | ldMemVx x => exact execLdMemVx_keepsDisplay s x
  | ldVxMem x => exact execLdVxMem_keepsDisplay s x
  | _ => exact ⟨rfl, rfl⟩

/-- Settles O41: the two instructions that set dirty, by their meanings, and the frame of all the others. -/
theorem dirtySetByClearAndDrawOnly : Obligations.DirtySetByClearAndDrawOnly := by
  unfold Obligations.DirtySetByClearAndDrawOnly
  refine fun i s t _ h => ⟨fun hm hrun => ?_, fun hcls hdrw => ?_⟩
  · rcases hm with hm | hm
    · obtain rfl := eq_cls_of_mnemonic hm
      exact dirty_of_exec_cls h
    · obtain ⟨x, y, n, rfl⟩ := eq_drw_of_mnemonic hm
      exact dirty_of_exec_drw h hrun
  · have hkeeps := exec_keepsDisplay s hcls hdrw
    rwa [h] at hkeeps

end Sys2Proof.Machine
end

