-- ==== Sys2Proof/Proofs/TimerLoads.lean ====
section
/-! O43: the three loads between a register and a timer, each one write and the tail (R202, R205, R206). -/

namespace Sys2Proof.Machine

/-! ## The rows -/

theorem rowDecodes_ldVxDt : RowDecodes 0xF0FF 0xF007 (fun w => .ldVxDt (xField w)) :=
  rowDecodes_familyF (c := 0x0) (d := 0x7) (fun w h => by unfold decodeFamilyF; rw [h]; rfl) (fun _ => rfl)

theorem rowDecodes_ldDtVx : RowDecodes 0xF0FF 0xF015 (fun w => .ldDtVx (xField w)) :=
  rowDecodes_familyF (c := 0x1) (d := 0x5) (fun w h => by unfold decodeFamilyF; rw [h]; rfl) (fun _ => rfl)

theorem rowDecodes_ldStVx : RowDecodes 0xF0FF 0xF018 (fun w => .ldStVx (xField w)) :=
  rowDecodes_familyF (c := 0x1) (d := 0x8) (fun w h => by unfold decodeFamilyF; rw [h]; rfl) (fun _ => rfl)

/-! ## One write of a timer -/

/-- FX15 writes DT and completes; its tail does not count DT (R105, R205). -/
theorem exec_ldDtVx (x : Reg) (s : State) :
    exec (.ldDtVx x) s = .next { s with dt := s.reg x, pc := s.pc + 2, st := ticked s.st } :=
  complete_eq { s with dt := s.reg x }

/-- FX18 writes ST before its own tail, so the tick counts the value just written (R105, R206). -/
theorem exec_ldStVx (x : Reg) (s : State) :
    exec (.ldStVx x) s = .next { s with st := ticked (s.reg x), pc := s.pc + 2 } :=
  complete_eq { s with st := s.reg x }

/-- Settles O43: FX07 is one write of Vx, and the tick of FX18's own cycle takes Vx to Vx less one, stopping at 0. -/
theorem timerInstructions : Obligations.TimerInstructions := by
  unfold Obligations.TimerInstructions
  exact ⟨rowDecodes_ldVxDt, rowDecodes_ldDtVx, rowDecodes_ldStVx, fun x s =>
    ⟨completesWithRegs_of_setReg rfl, exec_ldDtVx x s, exec_ldStVx x s⟩⟩

end Sys2Proof.Machine
end

