-- ==== Sys2Proof/Proofs/Effects.lean ====
section
/-! What an instruction does in general: it raises, it issues a key wait, or it has an effect and then the tail (R104 to R107). Every frame and every invariant is a statement about these three parts. -/

namespace Sys2Proof.Machine

/-! ## The three parts -/

/-- The fatal condition an instruction meets, if any: the first check that fails (R222, R225). -/
def fatalOf (s : State) : Instr → Option Fatal
  | .call _ => if s.stack.length < 16 then none else some { cause := .stackOverflow, addr := none }
  | .ret => if s.stack = [] then some { cause := .stackUnderflow, addr := none } else none
  | .ldBcd _ => firstFailure checkWrite (dataAddrs s 3)
  | .ldMemVx x => firstFailure checkWrite (dataAddrs s (x.val + 1))
  | .ldVxMem x => firstFailure checkRead (dataAddrs s (x.val + 1))
  | .drw _ _ n => firstFailure checkRead (dataAddrs s n.toNat)
  | _ => none

/-- The instruction sets `final`, so that its tail leaves pc (R106). -/
def isFinal : Instr → Bool
  | .jp _ | .call _ | .jpV0 _ => true
  | _ => false

/-- What an instruction that meets no fatal condition does before its tail (R104); FX0A, which has none, issues its wait (R203). The operations that recurse or branch are written by the fields they change, so that every other field is that of `s` by computation. -/
def effect (s : State) : Instr → State
  | .cls => { s with disp := Grid.clear, dirty := true }
  | .ret => ({ s with stack := s.stack.tail } : State).setPc (s.stack.headD 0)
  | .jp nnn => s.setPc (zextAddr nnn)
  | .call nnn => ({ s with stack := s.pc :: s.stack } : State).setPc (zextAddr nnn)
  | .seImm x kk => s.skipIf (s.reg x == kk)
  | .sneImm x kk => s.skipIf (s.reg x != kk)
  | .seReg x y => s.skipIf (s.reg x == s.reg y)
  | .ldImm x kk => s.setReg x kk
  | .addImm x kk => s.setResultFlag x (s.reg x + kk) (carryOf (s.reg x) kk)
  | .ldReg x y => s.setReg x (s.reg y)
  | .or x y => s.setReg x (s.reg x ||| s.reg y)
  | .and x y => s.setReg x (s.reg x &&& s.reg y)
  | .xor x y => s.setReg x (s.reg x ^^^ s.reg y)
  | .addReg x y => s.setResultFlag x (s.reg x + s.reg y) (carryOf (s.reg x) (s.reg y))
  | .sub x y => s.setResultFlag x (s.reg x - s.reg y) (noBorrow (s.reg x) (s.reg y))
  | .shr x y => s.setResultFlag x (shiftSource s x y >>> 1) (shrOut (shiftSource s x y))
  | .subn x y => s.setResultFlag x (s.reg y - s.reg x) (noBorrow (s.reg y) (s.reg x))
  | .shl x y => s.setResultFlag x (shiftSource s x y <<< 1) (shlOut (shiftSource s x y))
  | .sneReg x y => s.skipIf (s.reg x != s.reg y)
  | .ldI nnn => s.setIndex (zextAddr nnn)
  | .jpV0 nnn => s.setPc (zextAddr nnn + zextByte (s.reg 0))
  | .rnd x kk => ({ s with draws := s.draws + 1 } : State).setReg x (Config.randomByte s.draws &&& kk)
  | .drw x y n => { s with
      v := (s.setCollision (drawnBy s x y n).last (drawnBy s x y n).collided).v, disp := (drawnBy s x y n).disp, dirty := true }
  | .skp x => s.skipIf (keyEq s.key (s.reg x))
  | .sknp x => s.skipIf (!keyEq s.key (s.reg x))
  | .ldVxDt x => s.setReg x s.dt
  | .ldVxK x => { s with run := .waitKey x }
  | .ldDtVx x => { s with dt := s.reg x }
  | .ldStVx x => { s with st := s.reg x }
  | .addI x => s.setIndex (s.index + zextByte (s.reg x))
  | .ldF x => s.setIndex (glyphAddr (s.reg x))
  | .ldBcd x => { s with mem := (s.pokeList s.index.toNat (bcdDigits (s.reg x))).mem }
  | .ldMemVx x => { s with mem := (s.storeRegs x).mem, index := indexAfterBlock s x }
  | .ldVxMem x => { s with v := (s.loadRegs x).v, index := indexAfterBlock s x }
  | .nopUnmatched _ => { s with unmatchedCount := s.unmatchedCount + 1 }

/-- The state after the cycle of an instruction that meets no fatal condition: its effect and the tail, which FX0A does not reach (R105, R106, R203). -/
def afterEffect (s : State) : Instr → State
  | .ldVxK x => effect s (.ldVxK x)
  | i => (effect s i).tail (isFinal i)

/-! ## They are the model's -/

variable {s t : State} {i : Instr}

/-- VF after DRW does not depend on the display's new contents. -/
theorem State.setCollision_draw (s : State) (g : Grid) (last : Option Bool) (collided : Bool) :
    ({ s with disp := g, dirty := true } : State).setCollision last collided =
      { s with v := (s.setCollision last collided).v, disp := g, dirty := true } := by
  unfold State.setCollision
  cases s.cfg.collisionMode with
  | lastPixel => cases last <;> rfl
  | anyPixel => rfl

theorem exec_of_fatalOf_some {f : Fatal} (h : fatalOf s i = some f) : exec i s = fatal i s f := by
  cases i with
  | call nnn =>
    rcases execCall_cases s nnn with ⟨hl, -⟩ | ⟨hl, e⟩
    · simp [fatalOf, hl] at h
    · obtain rfl := Option.some.inj ((if_neg (by omega)).symm.trans h)
      exact e
  | ret =>
    rcases execRet_cases s with ⟨a, rest, hs, -⟩ | ⟨hs, e⟩
    · simp [fatalOf, hs] at h
    · obtain rfl := Option.some.inj ((if_pos hs).symm.trans h)
      exact e
  | ldBcd x => change execLdBcd x s = _; unfold execLdBcd; rw [show firstFailure _ _ = _ from h]
  | ldMemVx x => change execLdMemVx x s = _; unfold execLdMemVx; rw [show firstFailure _ _ = _ from h]
  | ldVxMem x => change execLdVxMem x s = _; unfold execLdVxMem; rw [show firstFailure _ _ = _ from h]
  | drw x y n => change execDrw x y n s = _; unfold execDrw; rw [show firstFailure _ _ = _ from h]
  | _ => cases h

theorem exec_of_fatalOf_none (h : fatalOf s i = none) : exec i s = .next (afterEffect s i) := by
  cases i with
  | call nnn =>
    rcases execCall_cases s nnn with ⟨-, e⟩ | ⟨hl, -⟩
    · exact e
    · simp [fatalOf, Nat.not_lt.2 hl] at h
  | ret =>
    rcases execRet_cases s with ⟨a, rest, hs, e⟩ | ⟨hs, -⟩
    · refine Eq.trans e ?_
      simp only [afterEffect, effect, hs]
      rfl
    · simp [fatalOf, hs] at h
  | ldBcd x =>
    change execLdBcd x s = _
    unfold execLdBcd
    rw [show firstFailure _ _ = _ from h]
    exact congrArg complete (State.pokeList_eq s _ _)
  | ldMemVx x =>
    change execLdMemVx x s = _
    unfold execLdMemVx
    rw [show firstFailure _ _ = _ from h]
    exact congrArg (fun u => complete (u.setIndex (indexAfterBlock s x))) (State.storeRegs_eq s x)
  | ldVxMem x =>
    change execLdVxMem x s = _
    unfold execLdVxMem
    rw [show firstFailure _ _ = _ from h]
    exact congrArg (fun u => complete (u.setIndex (indexAfterBlock s x))) (State.loadRegs_eq s x)
  | drw x y n =>
    change execDrw x y n s = _
    unfold execDrw
    rw [show firstFailure _ _ = _ from h]
    exact congrArg complete (State.setCollision_draw s _ _ _)
  | _ => rfl

/-- All that an instruction can do: raise, or run to the end of its cycle. -/
theorem exec_next_cases (h : exec i s = .next t) :
    (∃ f, fatalOf s i = some f ∧ t = s.raise (some (encode i)) f) ∨ (fatalOf s i = none ∧ t = afterEffect s i) := by
  cases hf : fatalOf s i with
  | some f => exact .inl ⟨f, rfl, (Host.Outcome.next.inj ((exec_of_fatalOf_some hf).symm.trans h)).symm⟩
  | none => exact .inr ⟨rfl, (Host.Outcome.next.inj ((exec_of_fatalOf_none hf).symm.trans h)).symm⟩

/-- All that a step can do: a stall, a fetch fault, an instruction, the end of a key wait, or more waiting (R100 to R109). -/
theorem step_next_cases (h : step s = .next t) :
    (s.run = .running ∧ s.dt ≠ 0 ∧ t = { s.takeHostInput with dt := s.dt - 1 }) ∨
      (s.run = .running ∧ s.dt = 0 ∧ ∃ f, s.fetch = .error f ∧ t = s.takeHostInput.raise none f) ∨
      (s.run = .running ∧ s.dt = 0 ∧ ∃ w, s.fetch = .ok w ∧ exec (decodeWord w) s.takeHostInput = .next t) ∨
      (∃ x k, s.run = .waitKey x ∧ s.deliveredKey = some k ∧ t = s.takeHostInput.supplyKey x k) ∨
      (∃ x, s.run = .waitKey x ∧ s.deliveredKey = none ∧ t = s.takeHostInput) := by
  rcases step_cases s with ⟨hr, e⟩ | ⟨x, k, hr, hk, e⟩ | ⟨x, hr, hk, e⟩ | ⟨r, -, e⟩ <;> rw [e] at h
  · rcases cycle_cases s.takeHostInput with ⟨hd, e⟩ | ⟨hd, f, hf, e⟩ | ⟨hd, w, hw, e⟩ <;> rw [e] at h
    · exact .inl ⟨hr, hd, (Host.Outcome.next.inj h).symm⟩
    · exact .inr (.inl ⟨hr, hd, f, hf, (Host.Outcome.next.inj h).symm⟩)
    · exact .inr (.inr (.inl ⟨hr, hd, w, hw, h⟩))
  · exact .inr (.inr (.inr (.inl ⟨x, k, hr, hk, (Host.Outcome.next.inj h).symm⟩)))
  · exact .inr (.inr (.inr (.inr ⟨x, hr, hk, (Host.Outcome.next.inj h).symm⟩)))
  · cases h

theorem step_next_of_running (hrun : s.run = .running) (h : step s = .next t) :
    (s.dt ≠ 0 ∧ t = { s.takeHostInput with dt := s.dt - 1 }) ∨
      (s.dt = 0 ∧ ∃ f, s.fetch = .error f ∧ t = s.takeHostInput.raise none f) ∨
      (s.dt = 0 ∧ ∃ w, s.fetch = .ok w ∧ exec (decodeWord w) s.takeHostInput = .next t) := by
  rcases step_next_cases h with ⟨-, hstall⟩ | ⟨-, hfetch⟩ | ⟨-, hexec⟩ | ⟨x, k, hr, -⟩ | ⟨x, hr, -⟩
  · exact .inl hstall
  · exact .inr (.inl hfetch)
  · exact .inr (.inr hexec)
  · cases hrun.symm.trans hr
  · cases hrun.symm.trans hr

theorem step_next_of_waitKey {x : Reg} (hrun : s.run = .waitKey x) (h : step s = .next t) :
    (∃ k, s.deliveredKey = some k ∧ t = s.takeHostInput.supplyKey x k) ∨ (s.deliveredKey = none ∧ t = s.takeHostInput) := by
  rcases step_next_cases h with ⟨hr, -⟩ | ⟨hr, -⟩ | ⟨hr, -⟩ | ⟨y, k, hr, hk, ht⟩ | ⟨y, hr, hk, ht⟩ <;>
    cases hrun.symm.trans hr
  · exact .inl ⟨k, hk, ht⟩
  · exact .inr ⟨hk, ht⟩

end Sys2Proof.Machine
end

