-- ==== Sys2Proof/Proofs/InvariantStep.lean ====
section
/-! O50, O54: the bytes a store writes, and the invariant: a push is checked against the depth, and a store that is made lies in the address space and above the font (R27, R50, R52). -/

namespace Sys2Proof.Machine

variable {s t : State} {i : Instr}

/-! ## Memory -/

theorem length_bcdDigits (b : Byte) : (bcdDigits b).length = 3 := rfl

/-- A list of stores leaves every byte outside it (R163, R164). -/
theorem State.byteAt_pokeList_of_not_mem {a c : Nat} {bs : List Byte} (hwf : s.mem.wf = true)
    (hfit : a + bs.length ≤ memSize) (hc : c < a ∨ a + bs.length ≤ c) : (s.pokeList a bs).byteAt c = s.byteAt c :=
  (State.read_pokeList hwf hfit c).trans (if_neg (by omega))

/-- The two instructions that store are those that store some bytes; the others leave memory as it is (R56). -/
theorem mem_afterEffect_of_storedBytes (h : storedBytes i = 0) : (afterEffect s i).mem = s.mem := by
  cases i with
  | ldBcd x | ldMemVx x => cases h
  | _ => rfl

/-- A store whose checks pass lies above the font and inside the address space (R55). -/
theorem store_bounds_of_fatalOf_none (h : fatalOf s i = none) (hi : storedBytes i ≠ 0) :
    0x050 ≤ s.index.toNat ∧ s.index.toNat + storedBytes i ≤ 0x1000 := by
  cases i with
  | ldBcd x => exact (firstFailure_checkWrite_none hi).1 h
  | ldMemVx x => exact (firstFailure_checkWrite_none hi).1 h
  | _ => exact absurd rfl hi

/-- What an instruction does to memory: it stores `storedBytes` bytes from I on, perhaps none. -/
theorem mem_afterEffect (s : State) (i : Instr) :
    ∃ bs : List Byte, bs.length = storedBytes i ∧ (afterEffect s i).mem = (s.pokeList s.index.toNat bs).mem := by
  by_cases h : storedBytes i = 0
  · exact ⟨[], h.symm, mem_afterEffect_of_storedBytes h⟩
  · cases i with
    | ldBcd x => exact ⟨bcdDigits (s.reg x), rfl, rfl⟩
    | ldMemVx x => exact ⟨(regsUpTo x).map s.reg, by rw [List.length_map, length_regsUpTo]; rfl, rfl⟩
    | _ => exact absurd rfl h

theorem byteAt_afterEffect (hwf : s.mem.wf = true) (hf : fatalOf s i = none) {a : Nat}
    (ha : a < s.index.toNat ∨ s.index.toNat + storedBytes i ≤ a) : (afterEffect s i).byteAt a = s.byteAt a := by
  by_cases h : storedBytes i = 0
  · exact congrArg (Memory.read · a) (mem_afterEffect_of_storedBytes h)
  · obtain ⟨-, hfit⟩ := store_bounds_of_fatalOf_none hf h
    obtain ⟨bs, hlen, hmem⟩ := mem_afterEffect s i
    have hout : (s.pokeList s.index.toNat bs).byteAt a = s.byteAt a := by
      rw [← hlen] at ha hfit
      exact State.byteAt_pokeList_of_not_mem hwf hfit ha
    exact (congrArg (Memory.read · a) hmem).trans hout

theorem wf_afterEffect (hwf : s.mem.wf = true) (hf : fatalOf s i = none) : (afterEffect s i).mem.wf = true := by
  by_cases h : storedBytes i = 0
  · rwa [mem_afterEffect_of_storedBytes h]
  · obtain ⟨-, hfit⟩ := store_bounds_of_fatalOf_none hf h
    obtain ⟨bs, hlen, hmem⟩ := mem_afterEffect s i
    rw [hmem]
    exact State.wf_pokeList hwf (by rw [hlen]; exact hfit)

/-- Settles O50: outside the stored bytes a completed instruction leaves memory, and a fatal condition leaves all of it. -/
theorem memoryFrame : Obligations.MemoryFrame := by
  unfold Obligations.MemoryFrame
  intro i s t hwf h a ha
  rcases exec_next_cases h with ⟨f, -, rfl⟩ | ⟨hf, rfl⟩
  · rfl
  · exact byteAt_afterEffect hwf hf ha

/-! ## The stack -/

/-- CALL's check leaves room for one more address; no other instruction pushes (R27, R124). -/
theorem stack_depth_afterEffect (hd : s.stack.length ≤ 16) (hf : fatalOf s i = none) :
    (afterEffect s i).stack.length ≤ 16 := by
  cases i with
  | call nnn =>
    have hlt : s.stack.length < 16 := by
      by_contra hge
      simp [fatalOf, hge] at hf
    exact hlt
  | ret =>
    change s.stack.tail.length ≤ 16
    rw [List.length_tail]
    omega
  | _ => exact hd

/-! ## The invariant -/

/-- A stored byte is never in the font: the bytes below 0x050 lie below I (R52, R55). -/
theorem font_byteAt_afterEffect (hwf : s.mem.wf = true) (hf : fatalOf s i = none) {a : Nat} (ha : a < 80) :
    (afterEffect s i).byteAt a = s.byteAt a := by
  by_cases h : storedBytes i = 0
  · exact congrArg (Memory.read · a) (mem_afterEffect_of_storedBytes h)
  · obtain ⟨habove, -⟩ := store_bounds_of_fatalOf_none hf h
    exact byteAt_afterEffect hwf hf (.inl (by omega))

/-- The invariant speaks of the stack, memory and the configuration only. -/
theorem State.Inv.congr (h : s.Inv) (hstack : t.stack = s.stack) (hmem : t.mem = s.mem) (hcfg : t.cfg = s.cfg) : t.Inv where
  depth := hstack ▸ h.depth
  canonical := hmem ▸ h.canonical
  font a := by
    unfold State.byteAt
    rw [hmem, hcfg]
    exact h.font a

theorem exec_keeps_inv (hinv : s.Inv) (h : exec i s = .next t) : t.Inv := by
  have hcfg := exec_keeps_cfg h
  rcases exec_next_cases h with ⟨f, -, rfl⟩ | ⟨hf, rfl⟩
  · exact hinv.congr rfl rfl rfl
  · refine ⟨stack_depth_afterEffect hinv.depth hf, wf_afterEffect hinv.canonical hf, fun a => ?_⟩
    rw [font_byteAt_afterEffect hinv.canonical hf a.isLt, hcfg]
    exact hinv.font a

/-- Settles O54: the host, a stall, a fetch fault and a key wait touch none of the three parts, and an instruction keeps them. -/
theorem stepKeepsTheInvariant : Obligations.StepKeepsTheInvariant := by
  unfold Obligations.StepKeepsTheInvariant
  intro s t hinv h
  have hhost : s.takeHostInput.Inv := hinv.congr rfl rfl rfl
  rcases step_next_cases h with
    ⟨-, -, rfl⟩ | ⟨-, -, f, -, rfl⟩ | ⟨-, -, w, -, hexec⟩ | ⟨x, k, -, -, rfl⟩ | ⟨x, -, -, rfl⟩
  · exact hhost.congr rfl rfl rfl
  · exact hhost.congr rfl rfl rfl
  · exact exec_keeps_inv hhost hexec
  · exact hhost.congr rfl rfl rfl
  · exact hhost

end Sys2Proof.Machine
end

