-- ==== Sys2Proof/Proofs/Rows.lean ====
section
/-! The rows of the opcode table not read so far; with them every one of the 34 rows has its forward reading (R82 to R88). -/

namespace Sys2Proof.Machine

theorem rowDecodes_ret : RowDecodes 0xFFFF 0x00EE (fun _ => .ret) := rowDecodes_fixed (i := .ret) rfl

theorem rowDecodes_call : RowDecodes 0xF000 0x2000 (fun w => .call (nnnField w)) :=
  rowDecodes_NNN (op := 0x2) (fun w h => by unfold decodeWord; rw [h]; rfl) (fun _ => rfl)

/-! ## Format XKK -/

theorem rowDecodes_seImm : RowDecodes 0xF000 0x3000 (fun w => .seImm (xField w) (kkField w)) :=
  rowDecodes_XKK (op := 0x3) (fun w h => by unfold decodeWord; rw [h]; rfl) (fun _ _ => rfl)

theorem rowDecodes_sneImm : RowDecodes 0xF000 0x4000 (fun w => .sneImm (xField w) (kkField w)) :=
  rowDecodes_XKK (op := 0x4) (fun w h => by unfold decodeWord; rw [h]; rfl) (fun _ _ => rfl)

theorem rowDecodes_addImm : RowDecodes 0xF000 0x7000 (fun w => .addImm (xField w) (kkField w)) :=
  rowDecodes_XKK (op := 0x7) (fun w h => by unfold decodeWord; rw [h]; rfl) (fun _ _ => rfl)

theorem rowDecodes_rnd : RowDecodes 0xF000 0xC000 (fun w => .rnd (xField w) (kkField w)) :=
  rowDecodes_XKK (op := 0xC) (fun w h => by unfold decodeWord; rw [h]; rfl) (fun _ _ => rfl)

/-! ## Formats XY and XYN -/

theorem rowDecodes_seReg : RowDecodes 0xF00F 0x5000 (fun w => .seReg (xField w) (yField w)) :=
  rowDecodes_XY (op := 0x5) (n := 0x0) (fun w h hn => by unfold decodeWord; rw [h, hn]; rfl) (fun _ _ => rfl)

theorem rowDecodes_sneReg : RowDecodes 0xF00F 0x9000 (fun w => .sneReg (xField w) (yField w)) :=
  rowDecodes_XY (op := 0x9) (n := 0x0) (fun w h hn => by unfold decodeWord; rw [h, hn]; rfl) (fun _ _ => rfl)

theorem rowDecodes_addReg : RowDecodes 0xF00F 0x8004 (fun w => .addReg (xField w) (yField w)) :=
  rowDecodes_family8 (n := 0x4) (fun w h => by unfold decodeFamily8; rw [h]; rfl) (fun _ _ => rfl)

theorem rowDecodes_sub : RowDecodes 0xF00F 0x8005 (fun w => .sub (xField w) (yField w)) :=
  rowDecodes_family8 (n := 0x5) (fun w h => by unfold decodeFamily8; rw [h]; rfl) (fun _ _ => rfl)

theorem rowDecodes_shr : RowDecodes 0xF00F 0x8006 (fun w => .shr (xField w) (yField w)) :=
  rowDecodes_family8 (n := 0x6) (fun w h => by unfold decodeFamily8; rw [h]; rfl) (fun _ _ => rfl)

theorem rowDecodes_subn : RowDecodes 0xF00F 0x8007 (fun w => .subn (xField w) (yField w)) :=
  rowDecodes_family8 (n := 0x7) (fun w h => by unfold decodeFamily8; rw [h]; rfl) (fun _ _ => rfl)

theorem rowDecodes_shl : RowDecodes 0xF00F 0x800E (fun w => .shl (xField w) (yField w)) :=
  rowDecodes_family8 (n := 0xE) (fun w h => by unfold decodeFamily8; rw [h]; rfl) (fun _ _ => rfl)

/-- DRW has the layout of format XYN, and only op selects it. -/
theorem rowDecodes_drw : RowDecodes 0xF000 0xD000 (fun w => .drw (xField w) (yField w) (nField w)) :=
  rowDecodes_of_encode (fun w h => by unfold decodeWord; rw [(mask_F000 w 0xD).1 h]; rfl)
    (fun _ => (mask_F000 _ 0xD).2 (opField_wordXYN 0xD _ _ _))

/-! ## Families E and F -/

theorem decodeWord_of_opField_fourteen {w : Word} (h : opField w = 0xE) : decodeWord w = decodeFamilyE w := by
  unfold decodeWord; rw [h]; rfl

/-- A row of family E: the instruction that kk selects, whatever the register is. -/
theorem rowDecodes_familyE {c d : Nibble} {build : Reg → Instr}
    (hdec : ∀ w, kkField w = (c ++ d : BitVec (4 + 4)) → decodeFamilyE w = build (xField w))
    (henc : ∀ x, encode (build x) = wordXKK 0xE x (c ++ d : BitVec (4 + 4))) :
    RowDecodes 0xF0FF (wordXYN 0xE 0 (regOfNibble c) d) (fun w => build (xField w)) :=
  rowDecodes_XSelector (fun w hop hkk => (decodeWord_of_opField_fourteen hop).trans (hdec w hkk)) henc

theorem rowDecodes_skp : RowDecodes 0xF0FF 0xE09E (fun w => .skp (xField w)) :=
  rowDecodes_familyE (c := 0x9) (d := 0xE) (fun w h => by unfold decodeFamilyE; rw [h]; rfl) (fun _ => rfl)

theorem rowDecodes_sknp : RowDecodes 0xF0FF 0xE0A1 (fun w => .sknp (xField w)) :=
  rowDecodes_familyE (c := 0xA) (d := 0x1) (fun w h => by unfold decodeFamilyE; rw [h]; rfl) (fun _ => rfl)

theorem rowDecodes_ldVxK : RowDecodes 0xF0FF 0xF00A (fun w => .ldVxK (xField w)) :=
  rowDecodes_familyF (c := 0x0) (d := 0xA) (fun w h => by unfold decodeFamilyF; rw [h]; rfl) (fun _ => rfl)

theorem rowDecodes_addI : RowDecodes 0xF0FF 0xF01E (fun w => .addI (xField w)) :=
  rowDecodes_familyF (c := 0x1) (d := 0xE) (fun w h => by unfold decodeFamilyF; rw [h]; rfl) (fun _ => rfl)

theorem rowDecodes_ldBcd : RowDecodes 0xF0FF 0xF033 (fun w => .ldBcd (xField w)) :=
  rowDecodes_familyF (c := 0x3) (d := 0x3) (fun w h => by unfold decodeFamilyF; rw [h]; rfl) (fun _ => rfl)

theorem rowDecodes_ldMemVx : RowDecodes 0xF0FF 0xF055 (fun w => .ldMemVx (xField w)) :=
  rowDecodes_familyF (c := 0x5) (d := 0x5) (fun w h => by unfold decodeFamilyF; rw [h]; rfl) (fun _ => rfl)

theorem rowDecodes_ldVxMem : RowDecodes 0xF0FF 0xF065 (fun w => .ldVxMem (xField w)) :=
  rowDecodes_familyF (c := 0x6) (d := 0x5) (fun w h => by unfold decodeFamilyF; rw [h]; rfl) (fun _ => rfl)

end Sys2Proof.Machine
end

