-- ==== Sys2Proof/Proofs/Codec.lean ====
section
/-! O1 to O5: the decoder follows the table row by row, and decoding and encoding undo each other (R80 to R91). -/

namespace Sys2Proof.Machine

open Sys2Proof.Laws

variable {w : Word}

/-! ## The decoder follows the matching row (R86, R91) -/

/-- A word that matches a row decodes to the row's instruction, so to its mnemonic. -/
theorem RowDecodes.mnemonic {mask value : Word} {build : Word → Instr} {name : String} (hrow : RowDecodes mask value build)
    (hname : ∀ w, (build w).mnemonic = name) (h : (OpcodeRow.mk name mask value).matchesWord w = true) :
    (decodeWord w).mnemonic = name := by
  rw [(hrow w).1 (eq_of_beq h), hname]

/-- Each of the 34 rows, in the table's order. -/
theorem mnemonic_of_matchesWord : ∀ r ∈ instructionRows, r.matchesWord w = true → (decodeWord w).mnemonic = r.mnemonic := by
  simp only [instructionRows, rowsFixed, rowsNnn, rowsXkk, rowsXy, rowsXyn, rowsX, List.cons_append, List.nil_append,
    List.forall_mem_cons]
  exact ⟨rowDecodes_cls.mnemonic fun _ => rfl, rowDecodes_ret.mnemonic fun _ => rfl,
    rowDecodes_jp.mnemonic fun _ => rfl, rowDecodes_call.mnemonic fun _ => rfl, rowDecodes_ldI.mnemonic fun _ => rfl,
    rowDecodes_jpV0.mnemonic fun _ => rfl,
    rowDecodes_seImm.mnemonic fun _ => rfl, rowDecodes_sneImm.mnemonic fun _ => rfl, rowDecodes_ldImm.mnemonic fun _ => rfl,
    rowDecodes_addImm.mnemonic fun _ => rfl, rowDecodes_rnd.mnemonic fun _ => rfl,
    rowDecodes_seReg.mnemonic fun _ => rfl, rowDecodes_ldReg.mnemonic fun _ => rfl, rowDecodes_or.mnemonic fun _ => rfl,
    rowDecodes_and.mnemonic fun _ => rfl, rowDecodes_xor.mnemonic fun _ => rfl, rowDecodes_addReg.mnemonic fun _ => rfl,
    rowDecodes_sub.mnemonic fun _ => rfl, rowDecodes_shr.mnemonic fun _ => rfl, rowDecodes_subn.mnemonic fun _ => rfl,
    rowDecodes_shl.mnemonic fun _ => rfl, rowDecodes_sneReg.mnemonic fun _ => rfl,
    rowDecodes_drw.mnemonic fun _ => rfl,
    rowDecodes_skp.mnemonic fun _ => rfl, rowDecodes_sknp.mnemonic fun _ => rfl, rowDecodes_ldVxDt.mnemonic fun _ => rfl,
    rowDecodes_ldVxK.mnemonic fun _ => rfl, rowDecodes_ldDtVx.mnemonic fun _ => rfl, rowDecodes_ldStVx.mnemonic fun _ => rfl,
    rowDecodes_addI.mnemonic fun _ => rfl, rowDecodes_ldF.mnemonic fun _ => rfl, rowDecodes_ldBcd.mnemonic fun _ => rfl,
    rowDecodes_ldMemVx.mnemonic fun _ => rfl, rowDecodes_ldVxMem.mnemonic fun _ => rfl, List.forall_mem_nil _⟩

/-- The mnemonics of the 34 rows are distinct, so they name the rows. -/
theorem eq_of_mnemonic_eq : ∀ r ∈ instructionRows, ∀ r' ∈ instructionRows, r.mnemonic = r'.mnemonic → r = r' :=
  fun _ hr _ hr' => List.inj_on_of_nodup_map (f := OpcodeRow.mnemonic) (by decide) hr hr'

/-! ## The no-op is for unmatched words (R88) -/

/-- Every instruction's word matches a row that bears its mnemonic, the catch-all row counted. -/
theorem encodingMatchesRow (i : Instr) : EncodingMatchesRow.Statement i := by
  cases i
  exacts [EncodingMatchesRow.cls, EncodingMatchesRow.ret, EncodingMatchesRow.jp _, EncodingMatchesRow.call _,
    EncodingMatchesRow.seImm _ _, EncodingMatchesRow.sneImm _ _, EncodingMatchesRow.seReg _ _,
    EncodingMatchesRow.ldImm _ _, EncodingMatchesRow.addImm _ _, EncodingMatchesRow.ldReg _ _,
    EncodingMatchesRow.or _ _, EncodingMatchesRow.and _ _, EncodingMatchesRow.xor _ _, EncodingMatchesRow.addReg _ _,
    EncodingMatchesRow.sub _ _, EncodingMatchesRow.shr _ _, EncodingMatchesRow.subn _ _, EncodingMatchesRow.shl _ _,
    EncodingMatchesRow.sneReg _ _, EncodingMatchesRow.ldI _, EncodingMatchesRow.jpV0 _, EncodingMatchesRow.rnd _ _,
    EncodingMatchesRow.drw _ _ _, EncodingMatchesRow.skp _, EncodingMatchesRow.sknp _, EncodingMatchesRow.ldVxDt _,
    EncodingMatchesRow.ldVxK _, EncodingMatchesRow.ldDtVx _, EncodingMatchesRow.ldStVx _, EncodingMatchesRow.addI _,
    EncodingMatchesRow.ldF _, EncodingMatchesRow.ldBcd _, EncodingMatchesRow.ldMemVx _, EncodingMatchesRow.ldVxMem _,
    EncodingMatchesRow.nopUnmatched _]

theorem unmatchedWord_iff : unmatchedWord w = true ↔ ∀ r ∈ instructionRows, r.matchesWord w ≠ true := by
  unfold unmatchedWord
  simp only [List.all_eq_true, Bool.not_eq_true', ne_eq, Bool.not_eq_true]

theorem eq_nopUnmatched_of_mnemonic {i : Instr} (h : i.mnemonic = "NOP_UNMATCHED") : ∃ w, i = .nopUnmatched w := by
  cases i <;> simp [Instr.mnemonic] at h ⊢

/-- A decoded no-op keeps its word, which encoding gives back. -/
theorem decodeWord_of_mnemonic (h : (decodeWord w).mnemonic = "NOP_UNMATCHED") : decodeWord w = .nopUnmatched w := by
  obtain ⟨w', hw'⟩ := eq_nopUnmatched_of_mnemonic h
  have hword : w' = w := (congrArg encode hw').symm.trans (encode_decodeWord w)
  rw [hw', hword]

/-- The word of a decoded word is that word, so it matches a row of its own mnemonic: for an unmatched word that is the catch-all. -/
theorem decodeWord_of_unmatchedWord (h : unmatchedWord w = true) : decodeWord w = .nopUnmatched w := by
  obtain ⟨r, hr, hname, hmatch⟩ := encodingMatchesRow (decodeWord w)
  rw [encode_decodeWord] at hmatch
  rcases List.mem_append.1 hr with hr | hr
  · exact absurd hmatch (unmatchedWord_iff.1 h r hr)
  · obtain rfl := List.mem_singleton.1 hr
    exact decodeWord_of_mnemonic hname.symm

theorem mnemonic_ne_nopUnmatched : ∀ r ∈ instructionRows, r.mnemonic ≠ "NOP_UNMATCHED" := by decide

/-- No row of the 34 bears the catch-all's mnemonic, so a word that decodes to the no-op matches none of them. -/
theorem unmatchedWord_of_decodeWord {w' : Word} (h : decodeWord w = .nopUnmatched w') : unmatchedWord w = true := by
  refine unmatchedWord_iff.2 fun r hr hmatch => mnemonic_ne_nopUnmatched r hr ?_
  rw [← mnemonic_of_matchesWord r hr hmatch, h]
  rfl

/-! ## Decoding an encoded instruction -/

/-- The decoder's selectors read the digits the layout puts there; outside families 8, E and F it is op, and n in families 5 and 9. -/
theorem decodeWord_encode {i : Instr} (h : i.wellFormed = true) : decodeWord (encode i) = i := by
  cases i with
  | nopUnmatched w => exact decodeWord_of_unmatchedWord h
  | cls | ret => rfl
  | ldReg x y | or x y | and x y | xor x y | addReg x y | sub x y | shr x y | subn x y | shl x y =>
    rw [encode, decodeWord_of_opField_eight (opField_wordXYN _ _ _ _)]
    simp [decodeFamily8]
  | skp x | sknp x =>
    rw [encode, decodeWord_of_opField_fourteen (opField_wordXKK _ _ _)]
    simp [decodeFamilyE]
  | ldVxDt x | ldVxK x | ldDtVx x | ldStVx x | addI x | ldF x | ldBcd x | ldMemVx x | ldVxMem x =>
    rw [encode, decodeWord_of_opField_fifteen (opField_wordXKK _ _ _)]
    simp [decodeFamilyF]
  | _ => simp [encode, decodeWord]

/-! ## The unlisted sub-opcodes, family by family (R85) -/

theorem mnemonic_decodeFamily0 : (decodeFamily0 w).mnemonic = "NOP_UNMATCHED" ↔ w ≠ 0x00E0 ∧ w ≠ 0x00EE := by
  unfold decodeFamily0
  split_ifs with h1 h2
  · simp [h1, Instr.mnemonic]
  · simp [h2, Instr.mnemonic]
  · exact iff_of_true rfl ⟨h1, h2⟩

theorem mnemonic_ite_nField {i : Instr} (hi : i.mnemonic ≠ "NOP_UNMATCHED") :
    (if nField w = 0 then i else .nopUnmatched w).mnemonic = "NOP_UNMATCHED" ↔ nField w ≠ 0 := by
  split_ifs with h
  · exact iff_of_false hi (not_not_intro h)
  · exact iff_of_true rfl h

/-- A list of nibbles as a list of numbers, which is what the decoder matches on. -/
theorem mem_iff_toNat_mem_map {k : Nat} (b : BitVec k) (l : List (BitVec k)) : b ∈ l ↔ b.toNat ∈ l.map BitVec.toNat :=
  (List.mem_map_of_injective BitVec.toNat_injective).symm

theorem mnemonic_decodeFamily8 : (decodeFamily8 w).mnemonic = "NOP_UNMATCHED" ↔
    nField w ∉ ([0x0, 0x1, 0x2, 0x3, 0x4, 0x5, 0x6, 0x7, 0xE] : List Nibble) := by
  rw [mem_iff_toNat_mem_map]
  unfold decodeFamily8
  dsimp only
  split <;> simp_all [Instr.mnemonic]

theorem mnemonic_decodeFamilyE : (decodeFamilyE w).mnemonic = "NOP_UNMATCHED" ↔ kkField w ∉ ([0x9E, 0xA1] : List Byte) := by
  unfold decodeFamilyE
  dsimp only
  split_ifs <;> simp_all [Instr.mnemonic]

theorem mnemonic_decodeFamilyF : (decodeFamilyF w).mnemonic = "NOP_UNMATCHED" ↔
    kkField w ∉ ([0x07, 0x0A, 0x15, 0x18, 0x1E, 0x29, 0x33, 0x55, 0x65] : List Byte) := by
  unfold decodeFamilyF
  dsimp only
  split_ifs <;> simp_all [Instr.mnemonic]

/-! ## The statements -/

/-- Settles O4: the two bytes put together are the instruction's word, and that word decodes to the instruction. -/
theorem decodeOfEncode : Obligations.DecodeOfEncode := by
  unfold Obligations.DecodeOfEncode
  intro i rest h
  change decode ((encode i).extractLsb' 8 8 :: (encode i).extractLsb' 0 8 :: rest) = _
  rw [decode_two, wordOfBytes_extract, decodeWord_encode h]

/-- Settles O2: family by family, by the value of op. -/
theorem subOpcodesAreExactlyListed : Obligations.SubOpcodesAreExactlyListed := by
  unfold Obligations.SubOpcodesAreExactlyListed
  intro w
  have hop (k : Nibble) : opField w = k ↔ (opField w).toNat = k.toNat := BitVec.toNat_inj.symm
  simp only [hop]
  unfold decodeWord
  split
  case h_1 h => rw [mnemonic_decodeFamily0]; simp [h]
  case h_6 h | h_10 h => rw [mnemonic_ite_nField (by simp [Instr.mnemonic])]; simp [h]
  case h_9 h => rw [mnemonic_decodeFamily8]; simp [h]
  case h_15 h => rw [mnemonic_decodeFamilyE]; simp [h]
  case h_16 =>
    have hlt := (opField w).isLt
    simp only [imp_false] at *
    have h : (opField w).toNat = 15 := by omega
    rw [mnemonic_decodeFamilyF]
    simp [h]
  case h_2 h | h_3 h | h_4 h | h_5 h | h_7 h | h_8 h | h_11 h | h_12 h | h_13 h | h_14 h => simp [h, Instr.mnemonic]

/-- Settles O3: the matching row gives the mnemonic, and the mnemonic gives the row. -/
theorem decodingFollowsTheOpcodeTable : Obligations.DecodingFollowsTheOpcodeTable := by
  unfold Obligations.DecodingFollowsTheOpcodeTable
  refine fun w => ⟨fun r hr h => ⟨mnemonic_of_matchesWord r hr h, fun r' hr' h' => ?_⟩, decodeWord_of_unmatchedWord⟩
  exact eq_of_mnemonic_eq r' hr' r hr ((mnemonic_of_matchesWord r' hr' h').symm.trans (mnemonic_of_matchesWord r hr h))

/-- Settles O5: only the no-op has a condition on its operand, which a decoded one meets. -/
theorem encodeOfDecode : Obligations.EncodeOfDecode := by
  unfold Obligations.EncodeOfDecode
  refine fun w => ⟨?_, encode_decodeWord w⟩
  cases h : decodeWord w with
  | nopUnmatched w' =>
    obtain rfl : w' = w := (congrArg encode h).symm.trans (encode_decodeWord w)
    exact unmatchedWord_of_decodeWord h
  | _ => rfl

/-- Settles O1: the decoder evaluated on each word. -/
theorem sampleWordsDecode : Obligations.SampleWordsDecode := by
  unfold Obligations.SampleWordsDecode
  decide

end Sys2Proof.Machine
end

