-- ==== Sys2Proof/Proofs/Frames.lean ====
section
/-! O49, O51, O7: which instruction may change which part of the state (R20 to R36). -/

namespace Sys2Proof.Machine

variable {s t : State} {i : Instr}

/-! ## Registers -/

/-- VF after DRW is the only register it writes (R183, R184). -/
theorem State.reg_setCollision_of_ne (s : State) (last : Option Bool) (collided : Bool) {r : Reg} (h : r ≠ VF) :
    (s.setCollision last collided).reg r = s.reg r := by
  unfold State.setCollision
  split
  · split
    · rw [State.reg_setReg, if_neg h]
    · rfl
  · rw [State.reg_setReg, if_neg h]

theorem State.reg_setResultFlag_of_ne (s : State) {x r : Reg} (b : Byte) (f : Bool) (hx : r ≠ x) (hVF : r ≠ VF) :
    (s.setResultFlag x b f).reg r = s.reg r := by
  rw [State.reg_setResultFlag, if_neg hVF, if_neg hx]

theorem reg_afterEffect {r : Reg} (h : writesReg i r = false) : (afterEffect s i).reg r = s.reg r := by
  cases i with
  | ldImm x kk | ldReg x y | or x y | and x y | xor x y | rnd x kk | ldVxDt x =>
    exact (State.reg_setReg _ _ _ _).trans (if_neg (ne_of_beq_false h))
  | addImm x kk | addReg x y | sub x y | shr x y | subn x y | shl x y =>
    obtain ⟨hx, hVF⟩ := Bool.or_eq_false_iff.1 h
    exact State.reg_setResultFlag_of_ne s _ _ (ne_of_beq_false hx) (ne_of_beq_false hVF)
  | drw x y n => exact State.reg_setCollision_of_ne _ _ _ (ne_of_beq_false h)
  | ldVxMem x => exact (State.reg_loadRegs s x r).trans (if_neg (of_decide_eq_false h))
  | _ => rfl

/-- Settles O49: a fatal condition writes no register, a completed instruction its destinations only. -/
theorem registerFrame : Obligations.RegisterFrame := by
  unfold Obligations.RegisterFrame
  intro i s t h r hr
  rcases exec_next_cases h with ⟨f, -, rfl⟩ | ⟨-, rfl⟩
  · rfl
  · exact reg_afterEffect hr

/-! ## The rest -/

theorem key_afterEffect (s : State) (i : Instr) : (afterEffect s i).key = s.key := by
  cases i <;> rfl

theorem inputs_afterEffect (s : State) (i : Instr) : (afterEffect s i).inputs = s.inputs := by
  cases i <;> rfl

theorem index_afterEffect (h : i.mnemonic ∉ ["LD_I", "ADD_I", "LD_F", "LD_MEM_VX", "LD_VX_MEM"]) :
    (afterEffect s i).index = s.index := by
  cases i with
  | ldI nnn | addI x | ldF x | ldMemVx x | ldVxMem x => exact absurd (by simp [Instr.mnemonic]) h
  | _ => rfl

theorem stack_afterEffect (h : i.mnemonic ∉ ["CALL", "RET"]) : (afterEffect s i).stack = s.stack := by
  cases i with
  | call nnn | ret => exact absurd (by simp [Instr.mnemonic]) h
  | _ => rfl

theorem draws_afterEffect (h : i.mnemonic ≠ "RND") : (afterEffect s i).draws = s.draws := by
  cases i with
  | rnd x kk => exact absurd rfl h
  | _ => rfl

theorem unmatchedCount_afterEffect (h : i.mnemonic ≠ "NOP_UNMATCHED") :
    (afterEffect s i).unmatchedCount = s.unmatchedCount := by
  cases i with
  | nopUnmatched w => exact absurd rfl h
  | _ => rfl

/-- Settles O51: field by field; a fatal condition writes none of them. -/
theorem specialStateFrame : Obligations.SpecialStateFrame := by
  unfold Obligations.SpecialStateFrame
  intro i s t h
  have hcfg := exec_keeps_cfg h
  rcases exec_next_cases h with ⟨f, -, rfl⟩ | ⟨-, rfl⟩
  · exact ⟨rfl, rfl, rfl, fun _ => rfl, fun _ => rfl, fun _ => rfl, fun _ => rfl⟩
  · exact ⟨key_afterEffect s i, hcfg, inputs_afterEffect s i, index_afterEffect, stack_afterEffect, draws_afterEffect,
      unmatchedCount_afterEffect⟩

/-! ## The host -/

theorem State.hostInput_cons {h : HostInput} {rest : List HostInput} (hs : s.inputs = h :: rest) : s.hostInput = h := by
  unfold State.hostInput
  rw [hs]
  rfl

theorem State.takeHostInput_of_nil (hs : s.inputs = []) : s.takeHostInput = s := by
  have hidle : s.hostInput = HostInput.idle := by unfold State.hostInput; rw [hs]; rfl
  have htail : s.inputs.tail = s.inputs := by rw [hs]; rfl
  unfold State.takeHostInput
  rw [hidle, htail]
  simp [HostInput.idle]

theorem step_keeps_key_and_inputs (h : step s = .next t) : t.key = s.takeHostInput.key ∧ t.inputs = s.inputs.tail := by
  rcases step_next_cases h with
    ⟨-, -, rfl⟩ | ⟨-, -, f, -, rfl⟩ | ⟨-, -, w, -, hexec⟩ | ⟨x, k, -, -, rfl⟩ | ⟨x, -, -, rfl⟩
  · exact ⟨rfl, rfl⟩
  · exact ⟨rfl, rfl⟩
  · obtain ⟨hkey, -, hinputs, -⟩ := specialStateFrame _ _ _ hexec
    exact ⟨hkey, hinputs⟩
  · exact ⟨rfl, rfl⟩
  · exact ⟨rfl, rfl⟩

/-- Settles O7: the host's act by its fields, and the frame of KEY for every step. -/
theorem keyChangesByTheHostOnly : Obligations.KeyChangesByTheHostOnly := by
  unfold Obligations.KeyChangesByTheHostOnly
  refine ⟨fun s => ⟨rfl, fun h rest hs => ?_, State.takeHostInput_of_nil⟩, fun s t => step_keeps_key_and_inputs⟩
  rw [State.takeHostInput_key, State.takeHostInput_dirty, State.hostInput_cons hs]
  refine ⟨fun k hk => ?_, fun hk => ?_, fun hd => ?_, fun hd => ?_⟩
  · rw [hk]; rfl
  · rw [hk]; rfl
  · rw [hd]; exact Bool.and_false _
  · rw [hd]; exact Bool.and_true _

end Sys2Proof.Machine
end

