-- ==== Sys2Proof/Proofs/CycleEnds.lean ====
section
/-! O12 to O15, O47, O48: how a cycle ends: always with a next state, with the net pc and the tick when it completes, and with nothing but the run state changed when it is fatal (R26, R105, R107, R222). -/

namespace Sys2Proof.Machine

variable {s t : State} {i : Instr}

/-! ## There is always an answer (R91, R110) -/

theorem exec_answers (i : Instr) (s : State) : ∃ t, exec i s = .next t := by
  cases hf : fatalOf s i with
  | some f => exact ⟨_, exec_of_fatalOf_some hf⟩
  | none => exact ⟨_, exec_of_fatalOf_none hf⟩

theorem cycle_answers (s : State) : ∃ t, cycle s = .next t := by
  rcases cycle_cases s with ⟨-, e⟩ | ⟨-, f, -, e⟩ | ⟨-, w, -, e⟩
  · exact ⟨_, e⟩
  · exact ⟨_, e⟩
  · obtain ⟨t, h⟩ := exec_answers (decodeWord w) s
    exact ⟨t, e.trans h⟩

/-- Settles O12: the only answer that is no next state is that of a HALTED core. -/
theorem stepAnswersUnlessHalted : Obligations.StepAnswersUnlessHalted := by
  unfold Obligations.StepAnswersUnlessHalted
  refine ⟨exec_answers, fun s => ?_⟩
  unfold State.notHalted
  rcases step_cases s with ⟨hr, e⟩ | ⟨x, k, hr, -, e⟩ | ⟨x, hr, -, e⟩ | ⟨r, hr, e⟩ <;> rw [e, hr]
  · exact iff_of_true (cycle_answers _) fun _ => nofun
  · exact iff_of_true ⟨_, rfl⟩ fun _ => nofun
  · exact iff_of_true ⟨_, rfl⟩ fun _ => nofun
  · refine iff_of_false ?_ fun h => h r rfl
    rintro ⟨t, ht⟩
    cases ht

/-! ## The run state -/

/-- A completed instruction leaves the run state, but for the wait FX0A issues. -/
theorem run_afterEffect (h : ∀ x, i ≠ .ldVxK x) : (afterEffect s i).run = s.run := by
  cases i with
  | ldVxK x => exact absurd rfl (h x)
  | _ => rfl

/-- All the ends of an instruction's cycle, by the run state it leaves. -/
theorem exec_running_cases (hrun : s.run = .running) (h : exec i s = .next t) :
    (t.run = .running ∧ fatalOf s i = none ∧ (∀ x, i ≠ .ldVxK x) ∧ t = afterEffect s i) ∨
      (∃ x, i = .ldVxK x ∧ t = { s with run := .waitKey x }) ∨
      (∃ f, fatalOf s i = some f ∧ t = s.raise (some (encode i)) f) := by
  rcases exec_next_cases h with ⟨f, hf, ht⟩ | ⟨hf, ht⟩
  · exact .inr (.inr ⟨f, hf, ht⟩)
  · by_cases hk : ∃ x, i = .ldVxK x
    · obtain ⟨x, rfl⟩ := hk
      exact .inr (.inl ⟨x, rfl, ht⟩)
    · rw [not_exists] at hk
      exact .inl ⟨ht ▸ (run_afterEffect hk).trans hrun, hf, hk, ht⟩

/-! ## pc (R26) -/

theorem add_two_add_two (w : Word) : w + 2 + 2 = w + 4 := BitVec.add_assoc w 2 2

/-- pc after a skip and the tail (R120). -/
theorem State.pc_tail_skipIf (s : State) (c : Bool) : ((s.skipIf c).tail false).pc = if c = true then s.pc + 4 else s.pc + 2 := by
  cases c
  · rfl
  · exact add_two_add_two s.pc

theorem pc_afterEffect (h : ∀ x, i ≠ .ldVxK x) : (afterEffect s i).pc = netPc s i := by
  cases i with
  | ldVxK x => exact absurd rfl (h x)
  | jp nnn | call nnn => exact zextAddr_eq_ofNat nnn
  | jpV0 nnn =>
    apply BitVec.eq_of_toNat_eq
    have hsum := toNat_zextAddr_add_zextByte nnn (s.reg 0)
    have hlt := (zextAddr nnn + zextByte (s.reg 0)).isLt
    change (zextAddr nnn + zextByte (s.reg 0)).toNat = _
    rw [netPc, BitVec.toNat_ofNat]
    omega
  | seImm x kk | sneImm x kk | seReg x y | sneReg x y =>
    refine (State.pc_tail_skipIf s _).trans ?_
    simp only [netPc, beq_iff_eq, bne_iff_ne]
  | skp x =>
    refine (State.pc_tail_skipIf s _).trans ?_
    simp only [netPc, keyEq_iff]
  | sknp x =>
    refine (State.pc_tail_skipIf s _).trans ?_
    simp only [netPc, Bool.not_eq_true', ← Bool.not_eq_true, keyEq_iff, ite_not]
  | _ => rfl

/-- Settles O13: by the end of the cycle, the net pc, or the instruction's own address. -/
theorem netProgramCounter : Obligations.NetProgramCounter := by
  unfold Obligations.NetProgramCounter
  intro i s t hrun h
  rcases exec_running_cases hrun h with ⟨ht, -, hk, rfl⟩ | ⟨x, rfl, rfl⟩ | ⟨f, -, rfl⟩
  · exact ⟨fun _ => pc_afterEffect hk, fun hn => absurd ht hn⟩
  · exact ⟨nofun, fun _ => rfl⟩
  · exact ⟨nofun, fun _ => rfl⟩

/-! ## The timers (R101, R105, R205, R206) -/

theorem st_afterEffect (s : State) (i : Instr) : (∀ x, i ≠ .ldVxK x) →
    (afterEffect s i).st = ticked (match i with | .ldStVx x => s.reg x | _ => s.st) := by
  intro h
  rw [← soundTick_eq_ticked]
  cases i with
  | ldVxK x => exact absurd rfl (h x)
  | _ => rfl

theorem dt_afterEffect (s : State) (i : Instr) :
    (afterEffect s i).dt = match i with | .ldDtVx x => s.reg x | _ => s.dt := by
  cases i <;> rfl

theorem exec_st_of_not_running (hrun : s.run = .running) (h : exec i s = .next t) (ht : t.run ≠ .running) : t.st = s.st := by
  rcases exec_running_cases hrun h with ⟨hr, -⟩ | ⟨x, rfl, rfl⟩ | ⟨f, -, rfl⟩
  · exact absurd hr ht
  · rfl
  · rfl

theorem step_st_of_not_running (hrun : s.run = .running) (h : step s = .next t) (ht : t.run ≠ .running) : t.st = s.st := by
  rcases step_next_of_running hrun h with ⟨-, rfl⟩ | ⟨-, f, -, rfl⟩ | ⟨-, w, -, hexec⟩
  · rfl
  · rfl
  · exact exec_st_of_not_running (s := s.takeHostInput) hrun hexec ht

theorem step_of_running (hrun : s.run = .running) : step s = cycle s.takeHostInput := by
  unfold step
  rw [hrun]

/-- A stall counts DT down and nothing else (R101). -/
theorem step_of_stall (hrun : s.run = .running) (hdt : s.dt ≠ 0) : step s = .next { s.takeHostInput with dt := s.dt - 1 } := by
  rw [step_of_running hrun]
  exact if_neg hdt

/-- Settles O14: the tick is the tail's and the delivered key's; no other end of a cycle has one. -/
theorem soundTimerTicksAfterEachInstruction : Obligations.SoundTimerTicksAfterEachInstruction := by
  unfold Obligations.SoundTimerTicksAfterEachInstruction
  refine ⟨fun i s t hrun h ht => ?_, fun i s t => exec_st_of_not_running, fun s t => step_st_of_not_running,
    fun s t hrun hdt h => ?_, fun s t x hrun h => ?_⟩
  · rcases exec_running_cases hrun h with ⟨-, -, hk, rfl⟩ | ⟨x, rfl, rfl⟩ | ⟨f, -, rfl⟩
    · exact st_afterEffect s i hk
    · cases ht
    · cases ht
  · cases (step_of_stall hrun hdt).symm.trans h
    rfl
  · rcases step_next_of_waitKey hrun h with ⟨k, -, rfl⟩ | ⟨-, rfl⟩
    · exact ⟨fun _ => soundTick_eq_ticked s.st, fun hn => absurd rfl hn⟩
    · exact ⟨fun hr => (nomatch hrun.symm.trans hr), fun _ => rfl⟩

/-! ## DT -/

/-- The bytes at pc as the statements read them, and the word the cycle fetches (R102). -/
theorem fetch_eq_ok {w : Word} (h : s.fetch = .ok w) :
    decode [s.byteAt s.pc.toNat, s.byteAt (s.pc.toNat + 1)] = .ok (decodeWord w, []) := by
  rcases State.fetch_cases s with ⟨-, e⟩ | ⟨-, e⟩ | ⟨-, -, e⟩
  · cases e.symm.trans h
  · cases e.symm.trans h
  · cases e.symm.trans h
    exact decode_two _ _ _

theorem exec_dt (h : exec i s = .next t) : t.dt = s.dt ∨ ∃ x, i = .ldDtVx x ∧ t.dt = s.reg x := by
  rcases exec_next_cases h with ⟨f, -, rfl⟩ | ⟨-, rfl⟩
  · exact .inl rfl
  · have hdt := dt_afterEffect s i
    cases i with
    | ldDtVx x => exact .inr ⟨x, rfl, hdt⟩
    | _ => exact .inl hdt

/-- A stall takes one from DT as a number: it is not 0 (R101). -/
theorem toNat_sub_one_add_one {b : Byte} (h : b ≠ 0) : (b - 1).toNat + 1 = b.toNat := by
  have hpos : b.toNat ≠ 0 := fun h0 => h (BitVec.eq_of_toNat_eq h0)
  have hlt := b.isLt
  have hone : (1 : Byte).toNat = 1 := rfl
  rw [BitVec.toNat_sub, hone]
  omega

/-- Settles O15: by the end of the cycle; a fetch fault and a key wait leave DT, and only FX15 writes it. -/
theorem delayTimerChangesOnlyByStallOrFX15 : Obligations.DelayTimerChangesOnlyByStallOrFX15 := by
  unfold Obligations.DelayTimerChangesOnlyByStallOrFX15
  refine ⟨fun i s t h => ?_, fun s t h hrun hdt => ?_, fun s t h hrun hdt => ?_, fun s t x h hrun => ?_⟩
  · rcases exec_next_cases h with ⟨f, hf, rfl⟩ | ⟨-, rfl⟩
    · cases i with
      | ldDtVx x => cases hf
      | _ => rfl
    · exact dt_afterEffect s i
  · cases (step_of_stall hrun hdt).symm.trans h
    exact toNat_sub_one_add_one hdt
  · rcases step_next_of_running hrun h with ⟨hn, -⟩ | ⟨-, f, -, rfl⟩ | ⟨-, w, hw, hexec⟩
    · exact absurd hdt hn
    · exact .inl hdt
    · rcases exec_dt hexec with ht | ⟨x, hx, ht⟩
      · exact .inl (ht.trans hdt)
      · exact .inr ⟨x, hx ▸ fetch_eq_ok hw, ht⟩
  · rcases step_next_of_waitKey hrun h with ⟨k, -, rfl⟩ | ⟨-, rfl⟩ <;> rfl

/-! ## Fatal conditions (R107, R221 to R225) -/

theorem exec_halted_cases {r : FaultRecord} (hrun : s.run = .running) (h : exec i s = .next t) (ht : t.run = .halted r) :
    ∃ f, fatalOf s i = some f ∧ t = s.raise (some (encode i)) f ∧
      r = { cause := f.cause, pc := some s.pc, word := some (encode i), addr := f.addr } := by
  rcases exec_running_cases hrun h with ⟨hr, -⟩ | ⟨x, rfl, rfl⟩ | ⟨f, hf, rfl⟩
  · cases hr.symm.trans ht
  · cases ht
  · exact ⟨f, hf, rfl, (RunState.halted.inj ht).symm⟩

/-- Settles O47: taking a fatal condition writes the run state alone, in a meaning and in a fetch. -/
theorem fatalConditionsArePrecise : Obligations.FatalConditionsArePrecise := by
  unfold Obligations.FatalConditionsArePrecise
  refine ⟨fun i s t r hrun h ht => ?_, fun s t r h ht => ?_⟩
  · obtain ⟨f, -, rfl, rfl⟩ := exec_halted_cases hrun h ht
    exact ⟨rfl, rfl, rfl⟩
  · rcases step_next_cases h with
      ⟨hr, -, rfl⟩ | ⟨hr, hd, f, -, rfl⟩ | ⟨hr, hd, w, -, hexec⟩ | ⟨x, k, -, -, rfl⟩ | ⟨x, hr, -, rfl⟩
    · cases hr.symm.trans ht
    · cases ht
      exact ⟨rfl, rfl, hr, hd⟩
    · obtain ⟨f, -, rfl, rfl⟩ := exec_halted_cases (s := s.takeHostInput) hr hexec ht
      exact ⟨rfl, rfl, hr, hd⟩
    · cases ht
    · cases hr.symm.trans ht

/-- All that a block of writes can raise (R222). -/
theorem fatal_of_checkWrite {n : Nat} (hn : n ≠ 0) {f : Fatal} (h : firstFailure checkWrite (dataAddrs s n) = some f) :
    (f = { cause := .fontWrite, addr := some s.index.toNat } ∧ s.index.toNat < 0x050) ∨
      (f = { cause := .memBounds, addr := some (max s.index.toNat 0x1000) } ∧ 0x1000 < s.index.toNat + n) := by
  rcases checkWrite_block s hn with ⟨-, -, e⟩ | ⟨hlt, e⟩ | ⟨hlt, e⟩ <;> cases e.symm.trans h
  · exact .inl ⟨rfl, hlt⟩
  · exact .inr ⟨rfl, hlt⟩

/-- All that a block of reads can raise (R222). -/
theorem fatal_of_checkRead {n : Nat} {f : Fatal} (h : firstFailure checkRead (dataAddrs s n) = some f) :
    f = { cause := .memBounds, addr := some (max s.index.toNat 0x1000) } ∧ 0x1000 < s.index.toNat + n := by
  rcases checkRead_block s n with ⟨-, e⟩ | ⟨-, hlt, e⟩ <;> cases e.symm.trans h
  exact ⟨rfl, hlt⟩

/-- Settles O48: the instructions that meet a fatal condition, by the check each of them makes. -/
theorem causesByInstruction : Obligations.CausesByInstruction := by
  unfold Obligations.CausesByInstruction
  intro i s t r hrun h ht
  obtain ⟨f, hf, -, rfl⟩ := exec_halted_cases hrun h ht
  cases i with
  | call nnn =>
    by_cases hl : s.stack.length < 16
    · simp [fatalOf, hl] at hf
    · obtain rfl := Option.some.inj ((if_neg hl).symm.trans hf)
      exact .inl ⟨rfl, rfl, rfl, Nat.not_lt.1 hl⟩
  | ret =>
    by_cases hs : s.stack = []
    · obtain rfl := Option.some.inj ((if_pos hs).symm.trans hf)
      exact .inr (.inl ⟨rfl, rfl, rfl, hs⟩)
    · simp [fatalOf, hs] at hf
  | ldBcd x =>
    rcases fatal_of_checkWrite (by omega) hf with ⟨rfl, hi⟩ | ⟨rfl, hi⟩
    · exact .inr (.inr (.inl ⟨rfl, .inl rfl, hi, rfl⟩))
    · exact .inr (.inr (.inr ⟨rfl, .inl rfl, hi, rfl⟩))
  | ldMemVx x =>
    rcases fatal_of_checkWrite (by omega) hf with ⟨rfl, hi⟩ | ⟨rfl, hi⟩
    · exact .inr (.inr (.inl ⟨rfl, .inr rfl, hi, rfl⟩))
    · exact .inr (.inr (.inr ⟨rfl, .inr (.inl rfl), hi, rfl⟩))
  | ldVxMem x =>
    obtain ⟨rfl, hi⟩ := fatal_of_checkRead hf
    exact .inr (.inr (.inr ⟨rfl, .inr (.inr (.inl rfl)), hi, rfl⟩))
  | drw x y n =>
    obtain ⟨rfl, hi⟩ := fatal_of_checkRead hf
    exact .inr (.inr (.inr ⟨rfl, .inr (.inr (.inr rfl)), hi, rfl⟩))
  | _ => cases hf

end Sys2Proof.Machine
end

