-- ==== Sys2Proof/Proofs/FlagIndependence.lean ====
section
/-! O52: two states that differ in VF alone stay so under every instruction that does not name VF (R22). -/

namespace Sys2Proof.Machine

/-! ## Two writes of registers -/

@[simp] theorem State.setReg_setReg_same (s : State) (x : Reg) (b c : Byte) : (s.setReg x b).setReg x c = s.setReg x c := by
  unfold State.setReg
  simp only [Vector.set_set]

theorem State.setReg_comm (s : State) {x y : Reg} (h : x ≠ y) (b c : Byte) :
    (s.setReg x b).setReg y c = (s.setReg y c).setReg x b := by
  unfold State.setReg
  simp only [Vector.set_comm _ _ (fun e => h (Fin.ext e))]

theorem State.setReg_reg_self (s : State) (x : Reg) : s.setReg x (s.reg x) = s := by
  unfold State.setReg State.reg
  simp only [Vector.set_getElem_self]

theorem State.reg_setReg_of_ne (s : State) {x y : Reg} (h : x ≠ y) (b : Byte) : (s.setReg y b).reg x = s.reg x := by
  rw [State.reg_setReg, if_neg h]

/-! ## States that differ in VF alone -/

/-- The second state is the first with some byte in VF. -/
def AgreeButVF (s u : State) : Prop := ∃ b, u = s.setReg VF b

variable {s : State} {i : Instr} {b : Byte}

theorem AgreeButVF.refl (s : State) : AgreeButVF s s := ⟨s.reg VF, (State.setReg_reg_self s VF).symm⟩

theorem AgreeButVF.setReg_VF {u : State} (h : AgreeButVF s u) (c : Byte) : u.setReg VF c = s.setReg VF c := by
  obtain ⟨b, rfl⟩ := h
  exact State.setReg_setReg_same s VF b c

theorem AgreeButVF.tail {u : State} (h : AgreeButVF s u) (final : Bool) : AgreeButVF (s.tail final) (u.tail final) := by
  obtain ⟨b, rfl⟩ := h
  exact ⟨b, rfl⟩

/-! ## The operations, from a state with another byte in VF -/

theorem State.setReg_agree {x : Reg} (h : x ≠ VF) (c : Byte) : AgreeButVF (s.setReg x c) ((s.setReg VF b).setReg x c) :=
  ⟨b, State.setReg_comm s h.symm b c⟩

/-- A result with its flag overwrites VF. -/
theorem State.setResultFlag_agree {x : Reg} (h : x ≠ VF) (c : Byte) (f : Bool) :
    AgreeButVF (s.setResultFlag x c f) ((s.setReg VF b).setResultFlag x c f) := by
  obtain ⟨d, hd⟩ := State.setReg_agree (s := s) (b := b) h c
  unfold State.setResultFlag
  rw [hd, State.setReg_setReg_same]
  exact .refl _

theorem State.setCollision_agree (last : Option Bool) (collided : Bool) :
    AgreeButVF (s.setCollision last collided) ((s.setReg VF b).setCollision last collided) := by
  unfold State.setCollision
  rw [State.setReg_cfg]
  cases s.cfg.collisionMode with
  | lastPixel =>
    cases last with
    | none => exact ⟨b, rfl⟩
    | some old => exact ⟨flagByte old, by simp⟩
  | anyPixel => exact ⟨flagByte collided, by simp⟩

theorem State.pokeList_setReg (s : State) (r : Reg) (b : Byte) (a : Nat) (bs : List Byte) :
    (s.setReg r b).pokeList a bs = (s.pokeList a bs).setReg r b := by
  induction bs generalizing s a with
  | nil => rfl
  | cons c bs ih => exact ih (s.poke a c) (a + 1)

/-- Registers below VF are stored as they are. -/
theorem State.storeRegs_agree {x : Reg} (h : ¬ VF ≤ x) : AgreeButVF (s.storeRegs x) ((s.setReg VF b).storeRegs x) := by
  have hregs : (regsUpTo x).map (s.setReg VF b).reg = (regsUpTo x).map s.reg :=
    List.map_congr_left fun r hr => State.reg_setReg_of_ne s (fun e : r = VF => h (e ▸ mem_regsUpTo.1 hr)) b
  refine ⟨b, ?_⟩
  unfold State.storeRegs
  rw [hregs]
  exact State.pokeList_setReg s VF b _ _

theorem State.loadRegList_setReg (s : State) {y : Reg} (b : Byte) (base : Nat) {rs : List Reg} (h : y ∉ rs) :
    (s.setReg y b).loadRegList base rs = (s.loadRegList base rs).setReg y b := by
  induction rs generalizing s with
  | nil => rfl
  | cons r rs ih =>
    rw [List.mem_cons, not_or] at h
    obtain ⟨hr, hrs⟩ := h
    have hcomm := State.setReg_comm s hr b (s.mem.read (base + r.val))
    exact (congrArg (State.loadRegList · base rs) hcomm).trans (ih _ hrs)

theorem State.loadRegs_agree {x : Reg} (h : ¬ VF ≤ x) : AgreeButVF (s.loadRegs x) ((s.setReg VF b).loadRegs x) :=
  ⟨b, State.loadRegList_setReg s b _ (fun hm => h (mem_regsUpTo.1 hm))⟩

theorem shiftSource_setReg {x y r : Reg} (hx : x ≠ r) (hy : y ≠ r) : shiftSource (s.setReg r b) x y = shiftSource s x y := by
  unfold shiftSource
  rw [State.setReg_cfg, State.reg_setReg_of_ne s hx, State.reg_setReg_of_ne s hy]

theorem drawnBy_setReg {x y r : Reg} (hx : x ≠ r) (hy : y ≠ r) (n : Nibble) :
    drawnBy (s.setReg r b) x y n = drawnBy s x y n := by
  unfold drawnBy
  rw [State.reg_setReg_of_ne s hx, State.reg_setReg_of_ne s hy]
  rfl

/-! ## Every instruction -/

/-- No check reads a register. -/
theorem fatalOf_setReg (r : Reg) : fatalOf (s.setReg r b) i = fatalOf s i := by
  cases i <;> rfl

theorem ne_VF_of_beq {x : Reg} (h : (VF == x) = false) : x ≠ VF := (ne_of_beq_false h).symm

theorem ne_VF_of_beq_or {x y : Reg} (h : (VF == x || VF == y) = false) : x ≠ VF ∧ y ≠ VF :=
  (Bool.or_eq_false_iff.1 h).imp ne_VF_of_beq ne_VF_of_beq

/-- An operand that is not VF reads the same in both states, so both effects write the same values. -/
theorem effect_agree (h : namesReg i VF = false) : AgreeButVF (effect s i) (effect (s.setReg VF b) i) := by
  cases i with
  | cls | ret | jp nnn | call nnn | ldI nnn | ldVxK x | nopUnmatched w => exact ⟨b, rfl⟩
  | jpV0 nnn =>
    have h0 : (s.setReg VF b).reg 0 = s.reg 0 := State.reg_setReg_of_ne s (by decide) b
    simp only [effect, h0]
    exact ⟨b, rfl⟩
  | seImm x kk | sneImm x kk | skp x | sknp x | ldDtVx x | ldStVx x | addI x | ldF x =>
    simp only [effect, State.reg_setReg_of_ne s (ne_VF_of_beq h)]
    exact ⟨b, rfl⟩
  | seReg x y | sneReg x y =>
    obtain ⟨hx, hy⟩ := ne_VF_of_beq_or h
    simp only [effect, State.reg_setReg_of_ne s hx, State.reg_setReg_of_ne s hy]
    exact ⟨b, rfl⟩
  | ldImm x kk | ldVxDt x => exact State.setReg_agree (ne_VF_of_beq h) _
  | rnd x kk => exact State.setReg_agree (s := { s with draws := s.draws + 1 }) (ne_VF_of_beq h) _
  | addImm x kk =>
    simp only [effect, State.reg_setReg_of_ne s (ne_VF_of_beq h)]
    exact State.setResultFlag_agree (ne_VF_of_beq h) _ _
  | ldReg x y | or x y | and x y | xor x y =>
    obtain ⟨hx, hy⟩ := ne_VF_of_beq_or h
    simp only [effect, State.reg_setReg_of_ne s hx, State.reg_setReg_of_ne s hy]
    exact State.setReg_agree hx _
  | addReg x y | sub x y | subn x y =>
    obtain ⟨hx, hy⟩ := ne_VF_of_beq_or h
    simp only [effect, State.reg_setReg_of_ne s hx, State.reg_setReg_of_ne s hy]
    exact State.setResultFlag_agree hx _ _
  | shr x y | shl x y =>
    obtain ⟨hx, hy⟩ := ne_VF_of_beq_or h
    simp only [effect, shiftSource_setReg hx hy]
    exact State.setResultFlag_agree hx _ _
  | drw x y n =>
    obtain ⟨hx, hy⟩ := ne_VF_of_beq_or h
    obtain ⟨c, hc⟩ := State.setCollision_agree (s := s) (b := b) (drawnBy s x y n).last (drawnBy s x y n).collided
    simp only [effect, drawnBy_setReg hx hy, hc]
    exact ⟨c, rfl⟩
  | ldBcd x =>
    simp only [effect, State.reg_setReg_of_ne s (ne_VF_of_beq h), State.setReg_index, State.pokeList_setReg]
    exact ⟨b, rfl⟩
  | ldMemVx x =>
    obtain ⟨c, hc⟩ := State.storeRegs_agree (s := s) (b := b) (of_decide_eq_false h)
    exact ⟨b, congrArg (fun u => { s.setReg VF b with mem := u.mem, index := indexAfterBlock s x }) hc⟩
  | ldVxMem x =>
    obtain ⟨c, hc⟩ := State.loadRegs_agree (s := s) (b := b) (of_decide_eq_false h)
    exact ⟨c, congrArg (fun u => { s with v := u.v, index := indexAfterBlock s x }) hc⟩

theorem afterEffect_agree (h : namesReg i VF = false) : AgreeButVF (afterEffect s i) (afterEffect (s.setReg VF b) i) := by
  have heff := effect_agree (s := s) (b := b) h
  cases i with
  | ldVxK x => exact heff
  | _ => exact heff.tail _

/-- Settles O52: a fatal condition leaves VF as it is in either state, and the effects agree. -/
theorem vfIsNoHiddenOperand : Obligations.VFIsNoHiddenOperand := by
  unfold Obligations.VFIsNoHiddenOperand
  intro i s t b hi h
  rcases exec_next_cases h with ⟨f, hf, rfl⟩ | ⟨hf, rfl⟩
  · refine ⟨_, exec_of_fatalOf_some ((fatalOf_setReg VF).trans hf), ?_⟩
    exact AgreeButVF.setReg_VF (s := s.raise (some (encode i)) f) ⟨b, rfl⟩ 0
  · exact ⟨_, exec_of_fatalOf_none ((fatalOf_setReg VF).trans hf), (afterEffect_agree hi).setReg_VF 0⟩

end Sys2Proof.Machine
end

