-- ==== Sys2Proof/Proofs/Cycles.lean ====
section
/-! O6, O8 to O11, O23, O44 to O46: what one step and a run of steps do, by the run state, DT and the fetched word (R100 to R110, R244). -/

namespace Sys2Proof.Machine

variable {s t : State} {i : Instr}

/-! ## One step -/

theorem wordOfBytes_of_decode {hi lo : Byte} (h : decode [hi, lo] = .ok (i, [])) : decodeWord (wordOfBytes hi lo) = i :=
  congrArg Prod.fst (Except.ok.inj h)

theorem cycle_of_fetch_error {f : Fatal} (hdt : s.dt = 0) (hf : s.fetch = .error f) : cycle s = .next (s.raise none f) := by
  unfold cycle
  rw [if_pos hdt, hf]

theorem cycle_of_fetch_ok {w : Word} (hdt : s.dt = 0) (hf : s.fetch = .ok w) : cycle s = exec (decodeWord w) s := by
  unfold cycle
  rw [if_pos hdt, hf]

theorem step_of_fetch_error {f : Fatal} (hrun : s.run = .running) (hdt : s.dt = 0) (hf : s.fetch = .error f) :
    step s = .next (s.takeHostInput.raise none f) :=
  (step_of_running hrun).trans (cycle_of_fetch_error hdt hf)

/-- A RUNNING core with DT = 0 executes the word at pc (R102, R103). -/
theorem step_of_pc_in_program (hrun : s.run = .running) (hdt : s.dt = 0) (hlo : 0x200 ≤ s.pc.toNat)
    (hhi : s.pc.toNat + 1 < 0x1000) :
    step s = exec (decodeWord (wordOfBytes (s.byteAt s.pc.toNat) (s.byteAt (s.pc.toNat + 1)))) s.takeHostInput := by
  rcases State.fetch_cases s with ⟨h, -⟩ | ⟨h, -⟩ | ⟨-, -, e⟩
  · omega
  · omega
  · exact (step_of_running hrun).trans (cycle_of_fetch_ok hdt e)

/-- Settles O6: the two bytes the statement decodes are those the cycle fetches. -/
theorem stepRunsTheDecodedInstruction : Obligations.StepRunsTheDecodedInstruction := by
  unfold Obligations.StepRunsTheDecodedInstruction
  intro s i hrun hdt hlo hhi hdec
  rw [step_of_pc_in_program hrun hdt hlo hhi, wordOfBytes_of_decode hdec]

/-- One less, as a number: no wrap, since DT is not 0. -/
theorem sub_one_eq_ofNat {b : Byte} (h : b ≠ 0) : b - 1 = BitVec.ofNat 8 (b.toNat - 1) := by
  have hsub := toNat_sub_one_add_one h
  have hlt := b.isLt
  apply BitVec.eq_of_toNat_eq
  rw [BitVec.toNat_ofNat]
  omega

/-- Settles O8: the stall of R101, its difference as a number. -/
theorem delayStallDecrementsDtOnly : Obligations.DelayStallDecrementsDtOnly := by
  unfold Obligations.DelayStallDecrementsDtOnly
  intro s hrun hdt
  rw [step_of_stall hrun hdt, sub_one_eq_ofNat hdt]

/-- Settles O10: the two failing checks of the fetch, whose pcs do not meet. -/
theorem fetchFaults : Obligations.FetchFaults := by
  unfold Obligations.FetchFaults
  intro s hrun hdt
  refine ⟨fun hlow => ?_, fun hhigh => ?_⟩ <;> rcases State.fetch_cases s with ⟨h, e⟩ | ⟨h, e⟩ | ⟨h, h', e⟩
  · exact step_of_fetch_error hrun hdt e
  · omega
  · omega
  · omega
  · have hmax : max s.pc.toNat 0x1000 = if 0x1000 ≤ s.pc.toNat then s.pc.toNat else s.pc.toNat + 1 := by
      split_ifs <;> omega
    rw [← hmax]
    exact step_of_fetch_error hrun hdt e
  · omega

theorem step_of_halted {r : FaultRecord} (h : s.run = .halted r) : step s = .fault (.halted r) := by
  unfold step
  rw [h]

/-- Settles O11: the run state does not depend on what the host does. -/
theorem haltedHasNoStep : Obligations.HaltedHasNoStep := by
  unfold Obligations.HaltedHasNoStep
  exact fun s r h inputs => step_of_halted (s := { s with inputs := inputs }) h

/-! ## Runs of steps -/

theorem core_run_zero (s : State) : Host.Core.run core 0 s = .next s := rfl

/-- A run whose first step answers goes on from the answer, in any machine of the interface. -/
theorem run_succ_of_step (M : Host.Core) {m : Nat} {s t : M.State} (h : M.step s = .next t) : M.run (m + 1) s = M.run m t := by
  rw [Host.Core.run, h]

theorem core_run_succ {m : Nat} (h : step s = .next t) : Host.Core.run core (m + 1) s = Host.Core.run core m t :=
  run_succ_of_step core h

/-- Settles O9: by induction on the number of cycles; each stalls and leaves one less to go. -/
theorem delayOfNStallsNCycles : Obligations.DelayOfNStallsNCycles := by
  unfold Obligations.DelayOfNStallsNCycles
  intro s m hrun hm
  induction m generalizing s with
  | zero => exact ⟨s, core_run_zero s, by simp⟩
  | succ m ih =>
    have hdt : s.dt ≠ 0 := fun h => by simp [h] at hm
    have hone := toNat_sub_one_add_one hdt
    obtain ⟨t, hrunm, ht⟩ := ih { s.takeHostInput with dt := s.dt - 1 } hrun (by simp only; omega)
    refine ⟨t, (core_run_succ (step_of_stall hrun hdt)).trans hrunm, ht.trans ?_⟩
    have hleft : (s.dt - 1).toNat - m = s.dt.toNat - (m + 1) := by omega
    simp only [hleft, State.takeHostInput_inputs, List.drop_tail]
    rfl

/-- A self-jump's step ticks ST and leaves pc (R123, R244 b). -/
theorem step_of_selfJump {nnn : Addr12} (hrun : s.run = .running) (hdt : s.dt = 0) (hlo : 0x200 ≤ s.pc.toNat)
    (hhi : s.pc.toNat + 1 < 0x1000)
    (hdec : decode [s.byteAt s.pc.toNat, s.byteAt (s.pc.toNat + 1)] = .ok (.jp nnn, [])) (hself : nnn.toNat = s.pc.toNat) :
    step s = .next { s.takeHostInput with st := ticked s.st } := by
  have hpc : zextAddr nnn = s.pc := BitVec.eq_of_toNat_eq ((toNat_zextAddr nnn).trans hself)
  rw [stepRunsTheDecodedInstruction s _ hrun hdt hlo hhi hdec, exec_jp, hpc]
  rfl

/-- Settles O23: by induction on the number of cycles; each meets the same self-jump again. -/
theorem selfJumpIsIdle : Obligations.SelfJumpIsIdle := by
  unfold Obligations.SelfJumpIsIdle
  intro s nnn hrun hdt hlo hhi hdec hself m
  induction m generalizing s with
  | zero => exact ⟨s, core_run_zero s, by simp⟩
  | succ m ih =>
    have hstep := step_of_selfJump hrun hdt hlo hhi hdec hself
    obtain ⟨t, hrunm, ht⟩ := ih { s.takeHostInput with st := ticked s.st } hrun hdt hlo hhi hdec hself
    refine ⟨t, (core_run_succ hstep).trans hrunm, ht.trans ?_⟩
    have hst : (ticked s.st).toNat - m = s.st.toNat - (m + 1) := by
      rw [← soundTick_eq_ticked, soundTick_toNat]
      omega
    simp only [hst, State.takeHostInput_inputs, List.drop_tail]
    rfl

/-! ## FX07 and FX0A in a step -/

theorem exec_ldVxDt (x : Reg) (s : State) :
    exec (.ldVxDt x) s = .next { s.setReg x s.dt with pc := s.pc + 2, st := ticked s.st } :=
  complete_eq (s.setReg x s.dt)

/-- Settles O44: an executed FX07 reads a DT that is 0, and a stall moves neither pc nor V. -/
theorem delayTimerReadsAsZero : Obligations.DelayTimerReadsAsZero := by
  unfold Obligations.DelayTimerReadsAsZero
  intro s t x hrun hlo hhi hdec h
  by_cases hdt : s.dt = 0
  · rw [stepRunsTheDecodedInstruction s _ hrun hdt hlo hhi hdec, exec_ldVxDt] at h
    cases h
    refine .inl ⟨rfl, ?_⟩
    change (s.takeHostInput.setReg x s.takeHostInput.dt).reg x = 0
    rw [State.reg_setReg, if_pos rfl]
    exact hdt
  · rw [step_of_stall hrun hdt] at h
    cases h
    exact .inr ⟨rfl, hdt, rfl⟩

/-- Settles O45: the issue step has no tail. -/
theorem waitForKeyIssue : Obligations.WaitForKeyIssue := by
  unfold Obligations.WaitForKeyIssue
  exact ⟨rowDecodes_ldVxK, fun _ _ => rfl⟩

theorem step_of_waitKey {x : Reg} (hrun : s.run = .waitKey x) : step s = keyWait x s.deliveredKey s.takeHostInput := by
  unfold step
  rw [hrun]

/-- Settles O46: the key of the coming transaction, if it delivers one. -/
theorem keyDeliveryCompletesTheWait : Obligations.KeyDeliveryCompletesTheWait := by
  unfold Obligations.KeyDeliveryCompletesTheWait
  refine fun s x hrun => ⟨fun h rest k hs hk => ?_, fun hnone => ?_⟩
  · have hdel : s.deliveredKey = some k := (congrArg HostInput.deliverKey (State.hostInput_cons hs)).trans hk
    refine ⟨s.takeHostInput.supplyKey x k, ?_, fun r => ?_, ?_⟩
    · rw [step_of_waitKey hrun, hdel]
      rfl
    · exact State.reg_setReg s.takeHostInput x r (keyByte k)
    · rw [← soundTick_eq_ticked]
      rfl
  · have hdel : s.deliveredKey = none := by
      unfold State.deliveredKey State.hostInput
      cases hs : s.inputs with
      | nil => rfl
      | cons h rest => exact hnone h (by rw [hs]; rfl)
    rw [step_of_waitKey hrun, hdel]
    rfl

end Sys2Proof.Machine
end

