-- ==== Sys2Proof/Proofs/CallsAndSkips.lean ====
section
/-! O17 to O21, O42: CALL and RET, and the skips (R120 to R128, R200, R201). -/

namespace Sys2Proof.Machine

variable {s : State} {i : Instr}

/-! ## CALL and RET -/

theorem exec_call (nnn : Addr12) (h : s.stack.length < 16) :
    exec (.call nnn) s = .next { s with stack := s.pc :: s.stack, pc := zextAddr nnn, st := ticked s.st } := by
  rcases execCall_cases s nnn with ⟨-, e⟩ | ⟨hge, -⟩
  · exact e.trans (completeFinal_eq _)
  · omega

theorem exec_call_of_full (nnn : Addr12) (h : 16 ≤ s.stack.length) :
    exec (.call nnn) s = fatal (.call nnn) s { cause := .stackOverflow, addr := none } := by
  rcases execCall_cases s nnn with ⟨hlt, -⟩ | ⟨-, e⟩
  · omega
  · exact e

theorem exec_ret {a : Word} {rest : List Word} (h : s.stack = a :: rest) :
    exec .ret s = .next { s with stack := rest, pc := a + 2, st := ticked s.st } := by
  rcases execRet_cases s with ⟨a', rest', h', e⟩ | ⟨h', -⟩ <;> cases h.symm.trans h'
  exact e.trans (complete_eq _)

theorem exec_ret_of_empty (h : s.stack = []) :
    exec .ret s = fatal .ret s { cause := .stackUnderflow, addr := none } := by
  rcases execRet_cases s with ⟨a, rest, h', -⟩ | ⟨-, e⟩
  · cases h.symm.trans h'
  · exact e

/-- Settles O17: the two outcomes of the push. -/
theorem callPushesItsOwnAddress : Obligations.CallPushesItsOwnAddress := by
  unfold Obligations.CallPushesItsOwnAddress
  refine ⟨rowDecodes_call, fun nnn s => ⟨fun h => ?_, fun h => ⟨_, rfl, exec_call_of_full nnn h⟩⟩⟩
  rw [exec_call nnn h, zextAddr_eq_ofNat]

/-- Settles O18: the two outcomes of the pop. -/
theorem returnPopsAndAddsTwo : Obligations.ReturnPopsAndAddsTwo := by
  unfold Obligations.ReturnPopsAndAddsTwo
  exact ⟨rowDecodes_ret, fun s => ⟨fun a rest => exec_ret, exec_ret_of_empty⟩⟩

/-- Settles O19: RET pops the address CALL pushed, the CALL's own, and goes two past it. -/
theorem returnUndoesCall : Obligations.ReturnUndoesCall := by
  unfold Obligations.ReturnUndoesCall
  exact fun nnn s h => ⟨_, exec_call nnn h, toNat_zextAddr nnn, rfl, fun u hu => ⟨_, exec_ret hu, rfl, rfl⟩⟩

/-! ## Skips -/

/-- A skip's own + 2 and the tail's are the net + 4 (R120). -/
theorem completesAsSkip_of_skipIf {c d : Bool} (h : exec i s = complete (s.skipIf c)) (hc : c = d) : CompletesAsSkip i s d := by
  subst hc
  unfold CompletesAsSkip
  rw [h, complete_eq]
  cases c with
  | false => rfl
  | true => exact congrArg (fun w => Host.Outcome.next { s with pc := w, st := ticked s.st }) (add_two_add_two s.pc)

theorem bne_eq_decide_ne (a b : Byte) : (a != b) = decide (a ≠ b) := by
  rw [Bool.eq_iff_iff, bne_iff_ne, decide_eq_true_iff]

/-- Settles O20: the comparison as a proposition. -/
theorem skipsOnImmediate : Obligations.SkipsOnImmediate := by
  unfold Obligations.SkipsOnImmediate
  exact ⟨rowDecodes_seImm, rowDecodes_sneImm, fun x kk s =>
    ⟨completesAsSkip_of_skipIf rfl (beq_eq_decide _ _), completesAsSkip_of_skipIf rfl (bne_eq_decide_ne _ _)⟩⟩

/-- Settles O21: the comparison as a proposition. -/
theorem skipsOnRegisters : Obligations.SkipsOnRegisters := by
  unfold Obligations.SkipsOnRegisters
  exact ⟨rowDecodes_seReg, rowDecodes_sneReg, fun x y s =>
    ⟨completesAsSkip_of_skipIf rfl (beq_eq_decide _ _), completesAsSkip_of_skipIf rfl (bne_eq_decide_ne _ _)⟩⟩

/-- Settles O42: KeyEq as a proposition. -/
theorem skipsOnKey : Obligations.SkipsOnKey := by
  unfold Obligations.SkipsOnKey
  refine ⟨rowDecodes_skp, rowDecodes_sknp, fun x s => ⟨completesAsSkip_of_skipIf rfl ?_, completesAsSkip_of_skipIf rfl ?_⟩⟩
  · rw [Bool.eq_iff_iff, keyEq_iff, decide_eq_true_iff]
  · rw [Bool.eq_iff_iff, Bool.not_eq_true', ← Bool.not_eq_true, keyEq_iff, decide_eq_true_iff]

end Sys2Proof.Machine
end

