-- ==== Sys2Proof/Proofs/Arithmetic.lean ====
section
/-! O25, O27 to O29, O31: sums, differences, shifts, the random byte and ADD I, each in the integer arithmetic of its rule (R142, R147 to R153, R161). -/

namespace Sys2Proof.Machine

variable {i : Instr} {s : State} {x : Reg}

/-- An instruction whose meaning writes a result to Vx, then a flag to VF, and completes: for x = F the flag stays (R23, R140). -/
theorem completesWithRegs_of_setResultFlag {b result flag : Byte} {f : Bool}
    (h : exec i s = complete (s.setResultFlag x b f)) (hf : flagByte f = flag) (hb : b = result) :
    CompletesWithRegs i s (fun r => if r = VF then flag else if r = x then result else s.reg r) := by
  subst hf hb
  exact ⟨_, h.trans (complete_eq _), fun r => State.reg_setResultFlag s x r b f, rfl⟩

theorem flagByte_decide (p : Prop) [Decidable p] : flagByte (decide p) = if p then 1 else 0 := by
  by_cases h : p <;> simp [flagByte, h]

/-! ## Sums and differences -/

theorem sub_eq_ofInt (a b : Byte) : a - b = BitVec.ofInt 8 ((a.toNat : Int) - (b.toNat : Int)) := by
  apply BitVec.eq_of_toNat_eq
  rw [BitVec.toNat_sub, BitVec.toNat_ofInt]
  omega

/-- Settles O25: the sum modulo 256, and the carry. -/
theorem additionsSetCarry : Obligations.AdditionsSetCarry := by
  unfold Obligations.AdditionsSetCarry
  exact ⟨rowDecodes_addImm, rowDecodes_addReg, fun x y kk s =>
    ⟨completesWithRegs_of_setResultFlag rfl (flagByte_decide _) (BitVec.add_def _ _),
      completesWithRegs_of_setResultFlag rfl (flagByte_decide _) (BitVec.add_def _ _)⟩⟩

/-- Settles O27: the difference modulo 256, and no borrow. -/
theorem subtractSetsNotBorrow : Obligations.SubtractSetsNotBorrow := by
  unfold Obligations.SubtractSetsNotBorrow
  exact ⟨rowDecodes_sub, rowDecodes_subn, fun x y s =>
    ⟨completesWithRegs_of_setResultFlag rfl (flagByte_decide _) (sub_eq_ofInt _ _),
      completesWithRegs_of_setResultFlag rfl (flagByte_decide _) (sub_eq_ofInt _ _)⟩⟩

/-! ## Shifts -/

theorem flagByte_shrOut (b : Byte) : flagByte (shrOut b) = BitVec.ofNat 8 (b.toNat % 2) := by
  rw [shrOut_eq, flagByte_decide]
  rcases Nat.mod_two_eq_zero_or_one b.toNat with h | h <;> rw [h] <;> rfl

theorem flagByte_shlOut (b : Byte) : flagByte (shlOut b) = BitVec.ofNat 8 (b.toNat / 128) := by
  rw [shlOut_eq, flagByte_decide]
  have hlt := b.isLt
  have hbit : b.toNat / 128 = 0 ∨ b.toNat / 128 = 1 := by omega
  rcases hbit with h | h <;> rw [h] <;> rfl

theorem shiftRight_one_eq_ofNat (b : Byte) : b >>> 1 = BitVec.ofNat 8 (b.toNat / 2) := by
  have hlt := b.isLt
  apply BitVec.eq_of_toNat_eq
  rw [toNat_shiftRight_one, BitVec.toNat_ofNat]
  omega

theorem shiftLeft_one_eq_ofNat (b : Byte) : b <<< 1 = BitVec.ofNat 8 (2 * b.toNat) := by
  apply BitVec.eq_of_toNat_eq
  rw [toNat_shiftLeft_one, BitVec.toNat_ofNat]

/-- Settles O28: the statement's source is the meaning's, and half and double of it are the shifts by one. -/
theorem shiftsByOneSetShiftedOutBit : Obligations.ShiftsByOneSetShiftedOutBit := by
  unfold Obligations.ShiftsByOneSetShiftedOutBit
  refine ⟨rowDecodes_shr, rowDecodes_shl, fun x y s src hsrc => ?_⟩
  obtain rfl : src = shiftSource s x y := hsrc
  exact ⟨completesWithRegs_of_setResultFlag rfl (flagByte_shrOut _) (shiftRight_one_eq_ofNat _),
    completesWithRegs_of_setResultFlag rfl (flagByte_shlOut _) (shiftLeft_one_eq_ofNat _)⟩

/-! ## RND and ADD I -/

theorem exec_rnd (x : Reg) (kk : Byte) (s : State) : exec (.rnd x kk) s =
    .next { s.setReg x (Config.randomByte s.draws &&& kk) with pc := s.pc + 2, st := ticked s.st, draws := s.draws + 1 } :=
  complete_eq (({ s with draws := s.draws + 1 } : State).setReg x (Config.randomByte s.draws &&& kk))

/-- Settles O29: the masked byte is the integer conjunction, and masking it again changes nothing. -/
theorem randomByteIsMasked : Obligations.RandomByteIsMasked := by
  unfold Obligations.RandomByteIsMasked
  refine ⟨rowDecodes_rnd, fun x kk s => ⟨_, exec_rnd x kk s, fun r => ?_, rfl, ?_⟩⟩
  · rw [← BitVec.toNat_and, BitVec.ofNat_toNat, BitVec.setWidth_eq]
    exact State.reg_setReg s x r _
  · have hx : (s.setReg x (Config.randomByte s.draws &&& kk)).reg x = Config.randomByte s.draws &&& kk := by
      rw [State.reg_setReg, if_pos rfl]
    change (s.setReg x _).reg x &&& kk = (s.setReg x _).reg x
    rw [hx, BitVec.and_assoc, BitVec.and_self]

/-- A word plus a byte, modulo 2^16 (R161). -/
theorem add_zextByte_eq_ofNat (w : Word) (b : Byte) : w + zextByte b = BitVec.ofNat 16 (w.toNat + b.toNat) := by
  rw [BitVec.add_def, toNat_zextByte]

/-- Settles O31: one write of I, of the sum modulo 2^16. -/
theorem addToIndexSetsNoFlag : Obligations.AddToIndexSetsNoFlag := by
  unfold Obligations.AddToIndexSetsNoFlag
  refine ⟨rowDecodes_addI, fun x s => ?_⟩
  rw [← add_zextByte_eq_ofNat]
  exact complete_setIndex s _

end Sys2Proof.Machine
end

