-- ==== Sys2Proof/Proofs/BlockAccesses.lean ====
section
/-! O32 to O37: BCD, the block store and the block load, where they complete and where they fault (R163 to R167, R225). -/

namespace Sys2Proof.Machine

variable {s : State} {x : Reg}

/-! ## The three meanings where their addresses pass (R163 to R165) -/

theorem exec_ldBcd (hlo : 0x050 ≤ s.index.toNat) (hhi : s.index.toNat + 2 < 0x1000) :
    exec (.ldBcd x) s = .next { s with
      mem := (s.pokeList s.index.toNat (bcdDigits (s.reg x))).mem, pc := s.pc + 2, st := ticked s.st } := by
  have hf : fatalOf s (.ldBcd x) = none := (firstFailure_checkWrite_none (by omega)).2 ⟨hlo, by omega⟩
  exact (exec_of_fatalOf_none hf).trans (complete_eq _)

/-- I after a block, as a number (R164, R165). -/
theorem indexAfterBlock_eq (s : State) (x : Reg) : indexAfterBlock s x =
    if s.cfg.loadStoreQuirk = true then s.index else BitVec.ofNat 16 (s.index.toNat + x.val + 1) := by
  have hsum : s.index + BitVec.ofNat 16 (x.val + 1) = BitVec.ofNat 16 (s.index.toNat + x.val + 1) := by
    rw [Nat.add_assoc, BitVec.ofNat_add _ (x.val + 1), BitVec.ofNat_toNat, BitVec.setWidth_eq]
  unfold indexAfterBlock
  rw [hsum]

theorem exec_ldMemVx (hlo : 0x050 ≤ s.index.toNat) (hhi : s.index.toNat + x.val < 0x1000) :
    exec (.ldMemVx x) s = .next { s with
      mem := (s.storeRegs x).mem, pc := s.pc + 2, st := ticked s.st
      index := if s.cfg.loadStoreQuirk = true then s.index else BitVec.ofNat 16 (s.index.toNat + x.val + 1) } := by
  have hf : fatalOf s (.ldMemVx x) = none := (firstFailure_checkWrite_none (by omega)).2 ⟨hlo, by omega⟩
  rw [← indexAfterBlock_eq]
  exact (exec_of_fatalOf_none hf).trans (complete_eq _)

theorem exec_ldVxMem (hhi : s.index.toNat + x.val < 0x1000) :
    exec (.ldVxMem x) s = .next { s with
      v := (s.loadRegs x).v, pc := s.pc + 2, st := ticked s.st
      index := if s.cfg.loadStoreQuirk = true then s.index else BitVec.ofNat 16 (s.index.toNat + x.val + 1) } := by
  have hf : fatalOf s (.ldVxMem x) = none := firstFailure_checkRead_none.2 (.inr (by omega))
  rw [← indexAfterBlock_eq]
  exact (exec_of_fatalOf_none hf).trans (complete_eq _)

/-! ## The bytes stored -/

/-- The byte FX55 stores for V[r] (R164). -/
theorem byteAt_storeRegs (hwf : s.mem.wf = true) (hhi : s.index.toNat + x.val < 0x1000) {r : Reg} (hr : r ≤ x) :
    (s.storeRegs x).byteAt (s.index.toNat + r.val) = s.reg r := by
  have hle : r.val ≤ x.val := hr
  refine (State.read_storeRegs hwf (by omega) _).trans ((if_pos (by omega)).trans ?_)
  rw [Nat.add_sub_cancel_left, Fin.ofNat_val_eq_self]

theorem byteAt_storeRegs_of_not_mem (hwf : s.mem.wf = true) (hhi : s.index.toNat + x.val < 0x1000) {a : Nat}
    (ha : a < s.index.toNat ∨ s.index.toNat + x.val < a) : (s.storeRegs x).byteAt a = s.byteAt a :=
  (State.read_storeRegs hwf (by omega) a).trans (if_neg (by omega))

/-- A digit of a list of stores. -/
theorem byteAt_pokeList {a k : Nat} {bs : List Byte} (hwf : s.mem.wf = true) (hfit : a + bs.length ≤ memSize)
    (hk : k < bs.length) : (s.pokeList a bs).byteAt (a + k) = bs.getD k 0 := by
  refine (State.read_pokeList hwf hfit _).trans ((if_pos (by omega)).trans ?_)
  rw [Nat.add_sub_cancel_left]

theorem toNat_ofNat_of_le_byte {n : Nat} (b : Byte) (h : n ≤ b.toNat) : (BitVec.ofNat 8 n).toNat = n := by
  have hlt := b.isLt
  rw [BitVec.toNat_ofNat]
  omega

/-- Settles O32: the three digits in order, each below 256, and no other byte. -/
theorem bcdStoresThreeDigits : Obligations.BcdStoresThreeDigits := by
  unfold Obligations.BcdStoresThreeDigits
  refine ⟨rowDecodes_ldBcd, fun x s hwf hlo hhi => ⟨_, exec_ldBcd hlo hhi, rfl, ?_, ?_, ?_, fun a ha => ?_⟩⟩
  all_goals have hfit : s.index.toNat + (bcdDigits (s.reg x)).length ≤ memSize := Nat.succ_le_of_lt hhi
  · exact (congrArg BitVec.toNat (byteAt_pokeList (k := 0) hwf hfit (by simp [bcdDigits]))).trans
      (toNat_ofNat_of_le_byte (s.reg x) (by omega))
  · exact (congrArg BitVec.toNat (byteAt_pokeList (k := 1) hwf hfit (by simp [bcdDigits]))).trans
      (toNat_ofNat_of_le_byte (s.reg x) (by omega))
  · exact (congrArg BitVec.toNat (byteAt_pokeList (k := 2) hwf hfit (by simp [bcdDigits]))).trans
      (toNat_ofNat_of_le_byte (s.reg x) (by omega))
  · exact State.byteAt_pokeList_of_not_mem hwf hfit (by rw [length_bcdDigits]; omega)

/-- Settles O33: the stored block, byte by byte. -/
theorem blockStoreWritesV0ToVx : Obligations.BlockStoreWritesV0ToVx := by
  unfold Obligations.BlockStoreWritesV0ToVx
  exact ⟨rowDecodes_ldMemVx, fun x s hwf hlo hhi => ⟨_, exec_ldMemVx hlo hhi, rfl,
    fun r => byteAt_storeRegs hwf hhi, fun a => byteAt_storeRegs_of_not_mem hwf hhi⟩⟩

/-- Settles O34: the loaded block, register by register. -/
theorem blockLoadReadsV0ToVx : Obligations.BlockLoadReadsV0ToVx := by
  unfold Obligations.BlockLoadReadsV0ToVx
  exact ⟨rowDecodes_ldVxMem, fun x s hhi => ⟨_, exec_ldVxMem hhi, rfl, State.reg_loadRegs s x⟩⟩

/-! ## A store and what reads it -/

/-- Settles O36: the load reads each register's byte where the store put it. -/
theorem blockStoreThenLoadRestores : Obligations.BlockStoreThenLoadRestores := by
  unfold Obligations.BlockStoreThenLoadRestores
  intro x s hwf hlo hhi
  refine ⟨_, exec_ldMemVx hlo hhi, fun u hmem hindex => ?_⟩
  have hload (r : Reg) : (u.loadRegs x).reg r = if r ≤ x then (s.storeRegs x).byteAt (s.index.toNat + r.val) else u.reg r := by
    rw [State.reg_loadRegs, hmem, hindex]
    rfl
  refine ⟨_, exec_ldVxMem (hindex ▸ hhi), fun r hr => ?_, fun r hr => ?_⟩
  · exact (hload r).trans ((if_pos hr).trans (byteAt_storeRegs hwf hhi hr))
  · exact (hload r).trans (if_neg (not_le_of_gt hr))

/-- Settles O37: a store that completes lies in memory, and the two bytes at pc are two of those it wrote. -/
theorem fetchSeesStoredBytes : Obligations.FetchSeesStoredBytes := by
  unfold Obligations.FetchSeesStoredBytes
  intro x r r' s t u hwf h ht hmem hrun hdt hr' hx hpc hlow
  rcases exec_next_cases h with ⟨f, -, rfl⟩ | ⟨hf, -⟩
  · cases ht
  obtain ⟨hlo, hfit⟩ := store_bounds_of_fatalOf_none hf (Nat.succ_ne_zero x.val)
  have hhi : s.index.toNat + x.val < 0x1000 := hfit
  cases (exec_ldMemVx hlo hhi).symm.trans h
  have hle : r'.val ≤ x.val := hx
  have hbyte {q : Reg} (hq : q ≤ x) : u.byteAt (s.index.toNat + q.val) = s.reg q :=
    (congrArg (Memory.read · _) hmem).trans (byteAt_storeRegs hwf hhi hq)
  have hnext : u.pc.toNat + 1 = s.index.toNat + r'.val := by omega
  rw [step_of_pc_in_program hrun hdt hlow (by omega), hnext, hbyte hx, hpc, hbyte (Fin.le_def.2 (by omega))]
  rfl

/-! ## Faults (R225) -/

/-- Settles O35: the check that fails, and that an empty sprite has none to make. -/
theorem blockAccessFaults : Obligations.BlockAccessFaults := by
  unfold Obligations.BlockAccessFaults
  intro x y n s
  have hn0 : n = 0 ↔ n.toNat = 0 := BitVec.toNat_inj.symm
  refine ⟨fun h => ⟨?_, ?_⟩, fun h => ?_, fun h => ?_, fun h => ?_, fun hn h => ?_, fun hn => ?_⟩
  · exact exec_of_fatalOf_some (i := .ldBcd x) (firstFailure_checkWrite_font (by omega) h)
  · exact exec_of_fatalOf_some (i := .ldMemVx x) (firstFailure_checkWrite_font (by omega) h)
  · exact exec_of_fatalOf_some (i := .ldBcd x) (firstFailure_checkWrite_bounds (by omega) (by omega) (by omega))
  · exact exec_of_fatalOf_some (i := .ldMemVx x) (firstFailure_checkWrite_bounds (by omega) (by omega) (by omega))
  · exact exec_of_fatalOf_some (i := .ldVxMem x) (firstFailure_checkRead_some (by omega) (by omega))
  · exact exec_of_fatalOf_some (i := .drw x y n) (firstFailure_checkRead_some (fun h0 => hn (hn0.2 h0)) h)
  · refine ⟨_, exec_of_fatalOf_none (i := .drw x y n) (firstFailure_checkRead_none.2 (.inl (hn0.1 hn))), ?_⟩
    exact run_afterEffect nofun

end Sys2Proof.Machine
end

