-- ==== Sys2Proof/Proofs/Drawing.lean ====
section
/-! O39 and O40: the pixels under set sprite bits are inverted, and VF says what the mode says (R180 to R184). -/

namespace Sys2Proof.Machine

variable {s : State} {x y : Reg} {n : Nibble}

/-! ## The sprite over the display (R182) -/

/-- Bit j of a sprite byte, by arithmetic (R180). -/
theorem spriteBit_eq_true_iff (b : Byte) (j : Nat) : spriteBit b j = true ↔ b.toNat / 2 ^ (7 - j) % 2 = 1 := by
  unfold spriteBit BitVec.getLsbD
  rw [Nat.testBit_eq_decide_div_mod_eq, decide_eq_true_iff]

theorem val_eq_spriteRow {vy : Byte} {r : Fin 32} {i : Nat} : r.val = (vy.toNat + i) % 32 ↔ r = spriteRow vy i := by
  rw [Fin.ext_iff]
  rfl

theorem val_eq_spriteCol {vx : Byte} {c : Fin 64} {j : Nat} : c.val = (vx.toNat + j) % 64 ↔ c = spriteCol vx j := by
  rw [Fin.ext_iff]
  rfl

/-- A pixel has one sprite row and one sprite column, modulo 32 and 64, so its sprite bit is unique. -/
theorem spriteCovers_iff {vx vy : Byte} {m : Nat} (hm : m ≤ 32) (r : Fin 32) (c : Fin 64) :
    spriteCovers s vx vy m r c ↔
      rowOf vy r < m ∧ colOf vx c < 8 ∧ spriteBit (s.mem.read (s.index.toNat + rowOf vy r)) (colOf vx c) = true := by
  unfold spriteCovers
  simp only [val_eq_spriteRow, val_eq_spriteCol, ← spriteBit_eq_true_iff]
  constructor
  · rintro ⟨i, hi, j, hj, hr, hc, hbit⟩
    obtain rfl := (eq_spriteRow (by omega)).1 hr
    obtain rfl := (eq_spriteCol (by omega)).1 hc
    exact ⟨hi, hj, hbit⟩
  · rintro ⟨hi, hj, hbit⟩
    exact ⟨_, hi, _, hj, (eq_spriteRow (by omega)).2 rfl, (eq_spriteCol (by omega)).2 rfl, hbit⟩

theorem length_spriteBytes_le (s : State) (n : Nibble) : 0 + (spriteBytes s n).length ≤ 32 := by
  have hlt := n.isLt
  rw [length_spriteBytes]
  omega

/-- DRW inverts exactly the covered pixels (R182). -/
theorem pixel_drawnBy_ne_iff (r : Fin 32) (c : Fin 64) :
    (drawnBy s x y n).disp.pixel r c ≠ s.disp.pixel r c ↔ spriteCovers s (s.reg x) (s.reg y) n.toNat r c := by
  have hlt := n.isLt
  rw [spriteCovers_iff (by omega)]
  unfold drawnBy
  rw [pixel_drawRows (length_spriteBytes_le s n), length_spriteBytes, Nat.zero_add, Nat.sub_zero]
  by_cases hrow : rowOf (s.reg y) r < n.toNat
  · rw [getD_spriteBytes s n hrow]
    cases s.disp.pixel r c <;> simp [hrow]
  · simp [hrow]

/-! ## DRW where it completes -/

theorem exec_drw (h : n = 0 ∨ s.index.toNat + n.toNat ≤ 0x1000) : exec (.drw x y n) s = .next { s with
    v := (s.setCollision (drawnBy s x y n).last (drawnBy s x y n).collided).v
    disp := (drawnBy s x y n).disp, dirty := true, pc := s.pc + 2, st := ticked s.st } := by
  have hn0 : n = 0 ↔ n.toNat = 0 := BitVec.toNat_inj.symm
  have hf : fatalOf s (.drw x y n) = none := firstFailure_checkRead_none.2 (h.imp_left hn0.1)
  exact (exec_of_fatalOf_none hf).trans (complete_eq _)

/-- Settles O39: the frame of VF's write, and the inverted pixels. -/
theorem drawXorsTheSprite : Obligations.DrawXorsTheSprite := by
  unfold Obligations.DrawXorsTheSprite
  exact ⟨rowDecodes_drw, fun x y n s h => ⟨_, exec_drw h, rfl,
    fun r hr => State.reg_setCollision_of_ne _ _ _ hr, fun r c => pixel_drawnBy_ne_iff r c⟩⟩

/-! ## The collision flag (R183, R184) -/

theorem flagByte_of_iff {b : Bool} {p : Prop} [Decidable p] (h : b = true ↔ p) : flagByte b = if p then 1 else 0 := by
  unfold flagByte
  simp only [h]

theorem reg_setCollision_lastPixel (hmode : s.cfg.collisionMode = .lastPixel) (old collided : Bool) :
    (s.setCollision (some old) collided).reg VF = flagByte old := by
  unfold State.setCollision
  rw [hmode]
  exact (State.reg_setReg _ _ _ _).trans (if_pos rfl)

theorem setCollision_lastPixel_none (hmode : s.cfg.collisionMode = .lastPixel) (collided : Bool) :
    s.setCollision none collided = s := by
  unfold State.setCollision
  rw [hmode]

theorem reg_setCollision_anyPixel (hmode : s.cfg.collisionMode = .anyPixel) (last : Option Bool) (collided : Bool) :
    (s.setCollision last collided).reg VF = flagByte collided := by
  unfold State.setCollision
  rw [hmode]
  exact (State.reg_setReg _ _ _ _).trans (if_pos rfl)

/-- A sprite of no rows visits no pixel (R183). -/
theorem last_drawnBy_zero (s : State) (x y : Reg) : (drawnBy s x y 0).last = none := rfl

/-- The last visited pixel is bit 7 of the last row, and DRW meets it as it was before the draw (R183). -/
theorem last_drawnBy (hn : n ≠ 0) : (drawnBy s x y n).last =
    some (s.disp.pixel (Fin.ofNat 32 ((s.reg y).toNat + n.toNat - 1)) (Fin.ofNat 64 ((s.reg x).toNat + 7))) := by
  have hpos : n.toNat ≠ 0 := fun h => hn (BitVec.eq_of_toNat_eq h)
  have hbytes : spriteBytes s n ≠ [] := List.ne_nil_of_length_pos (by rw [length_spriteBytes]; omega)
  have hrow : (s.reg y).toNat + (0 + n.toNat - 1) = (s.reg y).toNat + n.toNat - 1 := by omega
  unfold drawnBy
  rw [last_drawRows (length_spriteBytes_le s n) hbytes, length_spriteBytes, spriteRow, hrow]
  rfl

/-- A draw collides exactly when it turns a lit pixel off: a covered pixel is inverted, so a lit one goes out (R184). -/
theorem collided_drawnBy_iff : (drawnBy s x y n).collided = true ↔
    ∃ r c, s.disp.pixel r c = true ∧ (drawnBy s x y n).disp.pixel r c = false := by
  have hlt := n.isLt
  have hout (r c) (hlit : s.disp.pixel r c = true) :
      (drawnBy s x y n).disp.pixel r c = false ↔ spriteCovers s (s.reg x) (s.reg y) n.toNat r c := by
    rw [← pixel_drawnBy_ne_iff, hlit, ne_eq, Bool.not_eq_true]
  have hcol := collided_drawRows (vx := s.reg x) (vy := s.reg y) (d := { disp := s.disp, last := none, collided := false })
    (length_spriteBytes_le s n)
  simp only [length_spriteBytes, Nat.zero_add, Bool.false_eq_true, false_or] at hcol
  refine hcol.trans ⟨?_, ?_⟩
  · rintro ⟨k, hk, j, hj, hbit, hlit⟩
    refine ⟨_, _, hlit, (hout _ _ hlit).2 ((spriteCovers_iff (by omega) _ _).2 ?_)⟩
    rw [(eq_spriteRow (by omega)).1 rfl, (eq_spriteCol (by omega)).1 rfl]
    exact ⟨hk, hj, getD_spriteBytes s n hk ▸ hbit⟩
  · rintro ⟨r, c, hlit, hoff⟩
    obtain ⟨hk, hj, hbit⟩ := (spriteCovers_iff (by omega) _ _).1 ((hout r c hlit).1 hoff)
    refine ⟨_, hk, _, hj, (getD_spriteBytes s n hk).symm ▸ hbit, ?_⟩
    rwa [← (eq_spriteRow (by omega)).2 rfl, ← (eq_spriteCol (by omega)).2 rfl]

/-- Settles O40: by mode, the last visited pixel or the collision. -/
theorem collisionFlagByMode : Obligations.CollisionFlagByMode := by
  unfold Obligations.CollisionFlagByMode
  intro x y n s h
  refine ⟨_, exec_drw h, fun hmode => ⟨fun hn => ?_, fun hn => ?_⟩, fun hmode => ?_⟩
  · rw [hn, last_drawnBy_zero, setCollision_lastPixel_none hmode]
    rfl
  · rw [last_drawnBy hn]
    exact reg_setCollision_lastPixel hmode _ _
  · exact (reg_setCollision_anyPixel hmode _ _).trans (flagByte_of_iff collided_drawnBy_iff)

end Sys2Proof.Machine
end

