-- ==== Sys2Proof/Proofs/StartUp.lean ====
section
/-! O55 to O60: the state at reset and every start state, by what memory holds after the font and the ROM are placed (R41, R68, R250 to R258). -/

namespace Sys2Proof.Machine

variable (cfg : Config) (inputs : List HostInput)

/-! ## A ROM that fits and one that does not (R251) -/

theorem start_of_fits {rom : List Byte} (h : rom.length ≤ 3584) : State.start cfg inputs (some rom) =
    { State.reset with cfg := cfg, inputs := inputs, mem := startMemory cfg.font rom } :=
  if_neg (Nat.not_lt.2 h)

theorem start_of_oversized {rom : List Byte} (h : 3584 < rom.length) : State.start cfg inputs (some rom) =
    ({ State.reset with cfg := cfg, inputs := inputs, mem := startMemory cfg.font [] } : State).refuseRom .romTooLarge :=
  if_pos h

/-! ## The invariant -/

/-- A state with an empty stack and the start contents of its own font meets the invariant, whatever the rest is. -/
theorem inv_of_startMemory {s : State} {rom : List Byte} (hstack : s.stack = []) (hrom : rom.length ≤ 3584)
    (hmem : s.mem = startMemory s.cfg.font rom) : s.Inv where
  depth := by
    rw [hstack]
    exact Nat.zero_le 16
  canonical := hmem ▸ startMemory_wf s.cfg.font hrom
  font a := by
    unfold State.byteAt
    rw [hmem, startMemory_read s.cfg.font hrom]
    exact dif_pos a.isLt

/-- Settles O56: a refused start holds the memory of an empty ROM. -/
theorem invariantAtEveryStart : Obligations.InvariantAtEveryStart := by
  unfold Obligations.InvariantAtEveryStart
  intro cfg inputs rom
  cases rom with
  | none => exact inv_of_startMemory (rom := []) rfl (Nat.zero_le _) rfl
  | some rom =>
    rcases Nat.lt_or_ge 3584 rom.length with h | h
    · rw [start_of_oversized cfg inputs h]
      exact inv_of_startMemory (rom := []) rfl (Nat.zero_le _) rfl
    · rw [start_of_fits cfg inputs h]
      exact inv_of_startMemory rfl h rfl

/-- Settles O55: reset is the start with an empty ROM. -/
theorem invariantAtReset : Obligations.InvariantAtReset := by
  unfold Obligations.InvariantAtReset
  rw [State.reset_eq_start]
  exact invariantAtEveryStart _ _ _

/-! ## Memory at start -/

/-- Settles O58: the fields of the start state, and its memory byte by byte. -/
theorem startLoadsFontAndRom : Obligations.StartLoadsFontAndRom := by
  unfold Obligations.StartLoadsFontAndRom
  intro cfg inputs rom h
  rw [start_of_fits cfg inputs h]
  exact ⟨rfl, rfl, rfl, startMemory_read cfg.font h⟩

/-- Settles O57: the memory of reset is the start memory of the default font with an empty ROM. -/
theorem resetState : Obligations.ResetState := by
  unfold Obligations.ResetState
  refine ⟨rfl, rfl, fun r => ?_, rfl, rfl, rfl, rfl, Grid.pixel_clear, rfl, rfl, fun a => ?_⟩
  · exact Vector.getElem_replicate r.isLt
  · have hread := startMemory_read Config.defaultFont (rom := []) (Nat.zero_le _) a
    rw [startMemory_default] at hread
    refine hread.trans ?_
    by_cases ha : a < 80
    · rw [dif_pos ha, dif_pos ha]
    · rw [dif_neg ha, dif_neg ha, if_neg (by simp)]

/-! ## Refused ROMs (R257, R258) -/

/-- Settles O59: the refused start is halted, and a halted core has no step. -/
theorem unreadableRomNeverRuns : Obligations.UnreadableRomNeverRuns := by
  unfold Obligations.UnreadableRomNeverRuns
  exact fun cfg inputs => ⟨_, rfl, rfl, rfl, step_of_halted rfl⟩

/-- Settles O60: the refused start holds the memory of an empty ROM, which is zero above the font. -/
theorem oversizedRomIsRefused : Obligations.OversizedRomIsRefused := by
  unfold Obligations.OversizedRomIsRefused
  intro cfg inputs rom h
  rw [start_of_oversized cfg inputs h]
  refine ⟨_, rfl, rfl, rfl, step_of_halted rfl, fun a ha => ?_⟩
  have hread := startMemory_read cfg.font (rom := []) (Nat.zero_le _) a
  rw [dif_neg (by omega), if_neg (by simp)] at hread
  exact hread

end Sys2Proof.Machine
end
